-- ==== Sys2Proof/Word.lean ====
section
/-! DEFINITION. The word and byte types (00_scope.md R7, R8) and the ordered 4-tuple a lane group is (R10). -/

namespace Sys2Proof

/-- A byte of the message block (00_scope.md R7, R8). -/
abbrev Byte := BitVec 8

/-- A `u32`: an unsigned 32-bit word, bit 0 the least significant (00_scope.md R8). -/
abbrev Word := BitVec 32

/-- Four like things, one per lane, lane 0 first (00_scope.md R10). -/
structure Lanes (α : Type) where
  l0 : α
  l1 : α
  l2 : α
  l3 : α
  deriving DecidableEq, Repr

/-- A lane group `⟨g0, g1, g2, g3⟩` of four words (00_scope.md R10). -/
abbrev LaneGroup := Lanes Word

end Sys2Proof
end

