-- ==== Sys2Proof/Syntax.lean ====
section
/-! DEFINITION. The commands: one constructor of `Instr` per row of spec/opcode_table.json (30_encoding.md R77), with the
operands of its format (R72 to R76). A write command carries its data word `din`, as in the assembly syntax of R81. -/

namespace Sys2Proof

/-- The number of a scratch register V0..V15 (30_encoding.md R76). -/
abbrev VReg := Fin 16

/-- A lane number 0..3 (30_encoding.md R73). -/
abbrev LaneIdx := Fin 4

/-- The index of a STATE word, 0..7 (30_encoding.md R73). -/
abbrev StateIdx := Fin 8

/-- The address of a BLK byte, 0..63 (30_encoding.md R73). -/
abbrev ByteIdx := Fin 64

/-- The index of a BLK word, 0..15 (30_encoding.md R73). -/
abbrev WordIdx := Fin 16

/-- A shift amount 0..31 (30_encoding.md R74, R76). -/
abbrev Shamt := Fin 32

/-- A round-group number 0..15 (30_encoding.md R76). -/
abbrev GroupIdx := Fin 16

/-- The 23 commands, in the order of 30_encoding.md R77. -/
inductive Instr where
  /-- NOP (44_host.md R201). -/
  | nop
  /-- RDSTATUS (44_host.md R202). -/
  | rdstatus
  /-- WRSTATE idx, data (44_host.md R203). -/
  | wrstate (idx : StateIdx) (din : Word)
  /-- RDSTATE idx (44_host.md R204). -/
  | rdstate (idx : StateIdx)
  /-- WRBYTE idx, data (44_host.md R205). -/
  | wrbyte (idx : ByteIdx) (din : Word)
  /-- WRWORD idx, data (44_host.md R206). -/
  | wrword (idx : WordIdx) (din : Word)
  /-- RDWORD idx (44_host.md R207). -/
  | rdword (idx : WordIdx)
  /-- WRV Vv, lane, data (44_host.md R208). -/
  | wrv (v : VReg) (lane : LaneIdx) (din : Word)
  /-- RDV Vv, lane (44_host.md R209). -/
  | rdv (v : VReg) (lane : LaneIdx)
  /-- COMPRESS (43_compressor.md R171). -/
  | compress
  /-- VSRL Vd, Va, shamt (40_lane_group.md R101). -/
  | vsrl (vd va : VReg) (shamt : Shamt)
  /-- VSLL Vd, Va, shamt (40_lane_group.md R102). -/
  | vsll (vd va : VReg) (shamt : Shamt)
  /-- VOR Vd, Va, Vb (40_lane_group.md R103). -/
  | vor (vd va vb : VReg)
  /-- VXOR Vd, Va, Vb (40_lane_group.md R104). -/
  | vxor (vd va vb : VReg)
  /-- VADD Vd, Va, Vb (40_lane_group.md R105). -/
  | vadd (vd va vb : VReg)
  /-- VALIGN Vd, Vprev, Vnext (41_schedule.md R123). -/
  | valign (vd vprev vnext : VReg)
  /-- VMSG1 Vd, Vprev, Vnext (41_schedule.md R124). -/
  | vmsg1 (vd vprev vnext : VReg)
  /-- VMSG2 Vd, Vmixed, Vlater (41_schedule.md R125). -/
  | vmsg2 (vd vmixed vlater : VReg)
  /-- VSCHED Vd, Vw0, Vw1, Vw2, Vw3 (41_schedule.md R126). -/
  | vsched (vd vw0 vw1 vw2 vw3 : VReg)
  /-- VSWAP Vd, Va (42_round.md R145). -/
  | vswap (vd va : VReg)
  /-- VADDK Vd, Va, g (42_round.md R146). -/
  | vaddk (vd va : VReg) (g : GroupIdx)
  /-- VRND2 Vd, Vcdgh, Vabef, Vwk (42_round.md R147). -/
  | vrnd2 (vd vcdgh vabef vwk : VReg)
  /-- VRND4 Vabef, Vcdgh, Vw, g (42_round.md R148): `vabef` is the field `vd`, `vcdgh` the field `va`, `vw` the field `vb`. -/
  | vrnd4 (vabef vcdgh vw : VReg) (g : GroupIdx)
  deriving DecidableEq, Repr

end Sys2Proof
end

