-- ==== Sys2Proof/WellFormed.lean ====
section
/-! DEFINITION. Which commands are legal as instructions. Every operand's range is its type's, so one check is left: VRND4
with the same register for both state groups is illegal (30_encoding.md R78). -/

namespace Sys2Proof

/-- The instruction is legal (30_encoding.md R78): for VRND4, `vd ≠ va`; every other command always. -/
def Instr.wf : Instr → Bool
  | .nop => true
  | .rdstatus => true
  | .wrstate _ _ => true
  | .rdstate _ => true
  | .wrbyte _ _ => true
  | .wrword _ _ => true
  | .rdword _ => true
  | .wrv _ _ _ => true
  | .rdv _ _ => true
  | .compress => true
  | .vsrl _ _ _ => true
  | .vsll _ _ _ => true
  | .vor _ _ _ => true
  | .vxor _ _ _ => true
  | .vadd _ _ _ => true
  | .valign _ _ _ => true
  | .vmsg1 _ _ _ => true
  | .vmsg2 _ _ _ => true
  | .vsched _ _ _ _ _ => true
  | .vswap _ _ => true
  | .vaddk _ _ _ => true
  | .vrnd2 _ _ _ _ => true
  | .vrnd4 vabef vcdgh _ _ => decide (vabef ≠ vcdgh)

end Sys2Proof
end

