-- ==== Sys2Proof/Decode.lean ====
section
/-! DEFINITION. The decoder and, after it, the encoder and the assembly text. A command is the pair of the 32-bit command
word `cmd` and the 32-bit data word `din` presented with it (30_encoding.md R70, R71). The opcode map is one list of rows
with match and mask (R77); the decoder tests legality (R78) and assembles the operands (R76). -/

namespace Sys2Proof

/-! ### The opcode map -/

/-- One name per row of the opcode map (30_encoding.md R77). -/
inductive Op where
  | nop | rdstatus | wrstate | rdstate | wrbyte | wrword | rdword | wrv | rdv | compress
  | vsrl | vsll | vor | vxor | vadd
  | valign | vmsg1 | vmsg2 | vsched
  | vswap | vaddk | vrnd2 | vrnd4
  deriving DecidableEq, Repr

/-- A row of the opcode map: the word `c` matches it when `c &&& mask = pattern` (30_encoding.md R77). -/
structure OpcodeRow where
  op : Op
  pattern : Word
  mask : Word
  deriving DecidableEq, Repr

/-- The host access and compressor rows of 30_encoding.md R77. -/
def hostRows : List OpcodeRow :=
  [ ⟨.nop,      0x00000000, 0xFFFFFFFF⟩,
    ⟨.rdstatus, 0x01000000, 0xFFFFFFFF⟩,
    ⟨.wrstate,  0x02000000, 0xFFFFFFF8⟩,
    ⟨.rdstate,  0x03000000, 0xFFFFFFF8⟩,
    ⟨.wrbyte,   0x04000000, 0xFFFFFFC0⟩,
    ⟨.wrword,   0x05000000, 0xFFFFFFF0⟩,
    ⟨.rdword,   0x06000000, 0xFFFFFFF0⟩,
    ⟨.wrv,      0x07000000, 0xFF0FFFFC⟩,
    ⟨.rdv,      0x08000000, 0xFF0FFFFC⟩,
    ⟨.compress, 0x10000000, 0xFFFFFFFF⟩ ]

/-- The datapath rows of 30_encoding.md R77. -/
def datapathRows : List OpcodeRow :=
  [ ⟨.vsrl,   0x20000000, 0xFF00FFE0⟩,
    ⟨.vsll,   0x21000000, 0xFF00FFE0⟩,
    ⟨.vor,    0x22000000, 0xFF000FFF⟩,
    ⟨.vxor,   0x23000000, 0xFF000FFF⟩,
    ⟨.vadd,   0x24000000, 0xFF000FFF⟩,
    ⟨.valign, 0x30000000, 0xFF000FFF⟩,
    ⟨.vmsg1,  0x31000000, 0xFF000FFF⟩,
    ⟨.vmsg2,  0x32000000, 0xFF000FFF⟩,
    ⟨.vsched, 0x33000000, 0xFF00000F⟩,
    ⟨.vswap,  0x40000000, 0xFF00FFFF⟩,
    ⟨.vaddk,  0x41000000, 0xFF00FFF0⟩,
    ⟨.vrnd2,  0x42000000, 0xFF0000FF⟩,
    ⟨.vrnd4,  0x43000000, 0xFF000FF0⟩ ]

/-- The complete opcode map (30_encoding.md R77). -/
def opcodeTable : List OpcodeRow := hostRows ++ datapathRows

/-- The word matches the row (30_encoding.md R77). -/
def OpcodeRow.matchesWord (r : OpcodeRow) (cmd : Word) : Bool := cmd &&& r.mask == r.pattern

/-- The row of the opcode map whose word this is, if any; no two rows match one word (30_encoding.md R78). -/
def findRow (cmd : Word) : Option OpcodeRow := opcodeTable.find? fun r => r.matchesWord cmd

/-! ### The decoder -/

/-- Why a word is illegal (30_encoding.md R78). -/
inductive IllegalReason where
  /-- Its opcode is not in the map: reserved (R79). -/
  | reservedOpcode
  /-- Its opcode is in the map and a must-be-0 bit is 1. -/
  | mustBeZeroBit
  /-- VRND4 with `vd = va`. -/
  | vrnd4SameRegister
  deriving DecidableEq, Repr

/-- `cmd[lo+3 : lo]` as a 4-bit number (30_encoding.md R73 to R76). -/
def field4 (cmd : Word) (lo : Nat) : Fin 16 := (cmd.extractLsb' lo 4).toFin

/-- The operands of a word whose row is known (30_encoding.md R73 to R76): no field is sign-extended. -/
def assemble (op : Op) (cmd din : Word) : Instr :=
  let vd := field4 cmd 20
  let va := field4 cmd 16
  let vb := field4 cmd 12
  let vc := field4 cmd 8
  let ve := field4 cmd 4
  let imm4 := field4 cmd 0
  match op with
  | .nop => .nop
  | .rdstatus => .rdstatus
  | .wrstate => .wrstate (cmd.extractLsb' 0 3).toFin din
  | .rdstate => .rdstate (cmd.extractLsb' 0 3).toFin
  | .wrbyte => .wrbyte (cmd.extractLsb' 0 6).toFin din
  | .wrword => .wrword imm4 din
  | .rdword => .rdword imm4
  | .wrv => .wrv vd (cmd.extractLsb' 0 2).toFin din
  | .rdv => .rdv vd (cmd.extractLsb' 0 2).toFin
  | .compress => .compress
  | .vsrl => .vsrl vd va (cmd.extractLsb' 0 5).toFin
  | .vsll => .vsll vd va (cmd.extractLsb' 0 5).toFin
  | .vor => .vor vd va vb
  | .vxor => .vxor vd va vb
  | .vadd => .vadd vd va vb
  | .valign => .valign vd va vb
  | .vmsg1 => .vmsg1 vd va vb
  | .vmsg2 => .vmsg2 vd va vb
  | .vsched => .vsched vd va vb vc ve
  | .vswap => .vswap vd va
  | .vaddk => .vaddk vd va imm4
  | .vrnd2 => .vrnd2 vd va vb vc
  | .vrnd4 => .vrnd4 vd va vb imm4

/-- `cmd[31:24]` is some row's opcode (30_encoding.md R71, R77). -/
def opcodeMapped (cmd : Word) : Bool :=
  opcodeTable.any fun r => r.pattern.extractLsb' 24 8 == cmd.extractLsb' 24 8

/-- The legal instruction of a command, or the reason it is illegal (30_encoding.md R78, R79). Total on every pair of words. -/
def decode (cmd din : Word) : Except IllegalReason Instr :=
  match findRow cmd with
  | none => .error (if opcodeMapped cmd then .mustBeZeroBit else .reservedOpcode)
  | some r =>
    let i := assemble r.op cmd din
    if i.wf then .ok i else .error .vrnd4SameRegister

/-- The command word of an instruction given as one number, bit 0 the least significant bit of the command word; the data
word `din` counts on above it (notes/assumptions/9.md). -/
def tableCmd (nbits w : Nat) : Word := BitVec.ofNat 32 (w % 2 ^ nbits)

/-- The data word of an instruction given as one number: the bits above the 32 of the command word. -/
def tableDin (nbits w : Nat) : Word := BitVec.ofNat 32 (w % 2 ^ nbits / 2 ^ 32)

/-- The instruction the decoder reads from the `nbits` bits of `w`, every bit above them 0. -/
def decodeTableWord (nbits w : Nat) : Option Instr :=
  match decode (tableCmd nbits w) (tableDin nbits w) with
  | .ok i => some i
  | .error _ => none

/-! ### The encoder -/

/-- The row name of an instruction. -/
def Instr.op : Instr → Op
  | .nop => .nop
  | .rdstatus => .rdstatus
  | .wrstate _ _ => .wrstate
  | .rdstate _ => .rdstate
  | .wrbyte _ _ => .wrbyte
  | .wrword _ _ => .wrword
  | .rdword _ => .rdword
  | .wrv _ _ _ => .wrv
  | .rdv _ _ => .rdv
  | .compress => .compress
  | .vsrl _ _ _ => .vsrl
  | .vsll _ _ _ => .vsll
  | .vor _ _ _ => .vor
  | .vxor _ _ _ => .vxor
  | .vadd _ _ _ => .vadd
  | .valign _ _ _ => .valign
  | .vmsg1 _ _ _ => .vmsg1
  | .vmsg2 _ _ _ => .vmsg2
  | .vsched _ _ _ _ _ => .vsched
  | .vswap _ _ => .vswap
  | .vaddk _ _ _ => .vaddk
  | .vrnd2 _ _ _ _ => .vrnd2
  | .vrnd4 _ _ _ _ => .vrnd4

/-- `cmd[31:24]` of each command (30_encoding.md R77). -/
def Op.opcode : Op → Nat
  | .nop => 0x00
  | .rdstatus => 0x01
  | .wrstate => 0x02
  | .rdstate => 0x03
  | .wrbyte => 0x04
  | .wrword => 0x05
  | .rdword => 0x06
  | .wrv => 0x07
  | .rdv => 0x08
  | .compress => 0x10
  | .vsrl => 0x20
  | .vsll => 0x21
  | .vor => 0x22
  | .vxor => 0x23
  | .vadd => 0x24
  | .valign => 0x30
  | .vmsg1 => 0x31
  | .vmsg2 => 0x32
  | .vsched => 0x33
  | .vswap => 0x40
  | .vaddk => 0x41
  | .vrnd2 => 0x42
  | .vrnd4 => 0x43

/-- The number `x` placed with its bit 0 at bit `lo` of the command word. -/
def place (x lo : Nat) : Word := BitVec.ofNat 32 x <<< lo

/-- The operand fields of an instruction, in their places (30_encoding.md R72 to R75). -/
def operandBits : Instr → Word
  | .nop => 0
  | .rdstatus => 0
  | .wrstate idx _ => place idx 0
  | .rdstate idx => place idx 0
  | .wrbyte idx _ => place idx 0
  | .wrword idx _ => place idx 0
  | .rdword idx => place idx 0
  | .wrv v lane _ => place v 20 ||| place lane 0
  | .rdv v lane => place v 20 ||| place lane 0
  | .compress => 0
  | .vsrl vd va shamt => place vd 20 ||| place va 16 ||| place shamt 0
  | .vsll vd va shamt => place vd 20 ||| place va 16 ||| place shamt 0
  | .vor vd va vb => place vd 20 ||| place va 16 ||| place vb 12
  | .vxor vd va vb => place vd 20 ||| place va 16 ||| place vb 12
  | .vadd vd va vb => place vd 20 ||| place va 16 ||| place vb 12
  | .valign vd prev next => place vd 20 ||| place prev 16 ||| place next 12
  | .vmsg1 vd prev next => place vd 20 ||| place prev 16 ||| place next 12
  | .vmsg2 vd mixed later => place vd 20 ||| place mixed 16 ||| place later 12
  | .vsched vd w0 w1 w2 w3 => place vd 20 ||| place w0 16 ||| place w1 12 ||| place w2 8 ||| place w3 4
  | .vswap vd va => place vd 20 ||| place va 16
  | .vaddk vd va g => place vd 20 ||| place va 16 ||| place g 0
  | .vrnd2 vd cdgh abef wk => place vd 20 ||| place cdgh 16 ||| place abef 12 ||| place wk 8
  | .vrnd4 abef cdgh w g => place abef 20 ||| place cdgh 16 ||| place w 12 ||| place g 0

/-- The command word of an instruction (30_encoding.md R71 to R77). -/
def encodeCmd (i : Instr) : Word := place i.op.opcode 24 ||| operandBits i

/-- The data word of an instruction: the `din` of a write command; for every other command, which ignores it, 0
(30_encoding.md R70, R76). -/
def encodeDin : Instr → Word
  | .wrstate _ din => din
  | .wrbyte _ din => din
  | .wrword _ din => din
  | .wrv _ _ din => din
  | .nop | .rdstatus | .rdstate _ | .rdword _ | .rdv _ _ | .compress => 0
  | .vsrl _ _ _ | .vsll _ _ _ | .vor _ _ _ | .vxor _ _ _ | .vadd _ _ _ => 0
  | .valign _ _ _ | .vmsg1 _ _ _ | .vmsg2 _ _ _ | .vsched _ _ _ _ _ => 0
  | .vswap _ _ | .vaddk _ _ _ | .vrnd2 _ _ _ _ | .vrnd4 _ _ _ _ => 0

/-- The two words a host presents for an instruction: command word and data word. -/
def encode (i : Instr) : Word × Word := (encodeCmd i, encodeDin i)

/-- The command is one of the four write commands, which read `din` (30_encoding.md R76). -/
def Instr.isWrite : Instr → Bool
  | .wrstate _ _ => true
  | .wrbyte _ _ => true
  | .wrword _ _ => true
  | .wrv _ _ _ => true
  | .nop | .rdstatus | .rdstate _ | .rdword _ | .rdv _ _ | .compress => false
  | .vsrl _ _ _ | .vsll _ _ _ | .vor _ _ _ | .vxor _ _ _ | .vadd _ _ _ => false
  | .valign _ _ _ | .vmsg1 _ _ _ | .vmsg2 _ _ _ | .vsched _ _ _ _ _ => false
  | .vswap _ _ | .vaddk _ _ _ | .vrnd2 _ _ _ _ | .vrnd4 _ _ _ _ => false

/-! ### Assembly text -/

/-- A register name `V0`..`V15` (30_encoding.md R81). -/
def vName (v : VReg) : String := "V" ++ toString v.val

/-- One hexadecimal digit. -/
def hexDigit (n : BitVec 4) : Char := ("0123456789abcdef".toList)[n.toNat]?.getD '0'

/-- The eight hexadecimal digits of a word after `0x`, most significant first (30_encoding.md R81). -/
def hexWord (w : Word) : String :=
  "0x" ++ String.ofList ([28, 24, 20, 16, 12, 8, 4, 0].map fun lo => hexDigit (w.extractLsb' lo 4))

/-- The directive that presents a raw word as a command (30_encoding.md R81). -/
def asmRawWord (w : Word) : String := ".word " ++ hexWord w

/-- `MNEMONIC operand, operand, ...`, operands in the order of 30_encoding.md R81. -/
def asmLine (mnemonic : String) (operands : List String) : String :=
  if operands.isEmpty then mnemonic else mnemonic ++ " " ++ String.intercalate ", " operands

/-- The assembly text of a command (30_encoding.md R81): registers `V0`..`V15`, indices decimal, data words hexadecimal. -/
def asmText : Instr → String
  | .nop => asmLine "NOP" []
  | .rdstatus => asmLine "RDSTATUS" []
  | .wrstate idx din => asmLine "WRSTATE" [toString idx.val, hexWord din]
  | .rdstate idx => asmLine "RDSTATE" [toString idx.val]
  | .wrbyte idx din => asmLine "WRBYTE" [toString idx.val, hexWord din]
  | .wrword idx din => asmLine "WRWORD" [toString idx.val, hexWord din]
  | .rdword idx => asmLine "RDWORD" [toString idx.val]
  | .wrv v lane din => asmLine "WRV" [vName v, toString lane.val, hexWord din]
  | .rdv v lane => asmLine "RDV" [vName v, toString lane.val]
  | .compress => asmLine "COMPRESS" []
  | .vsrl vd va shamt => asmLine "VSRL" [vName vd, vName va, toString shamt.val]
  | .vsll vd va shamt => asmLine "VSLL" [vName vd, vName va, toString shamt.val]
  | .vor vd va vb => asmLine "VOR" [vName vd, vName va, vName vb]
  | .vxor vd va vb => asmLine "VXOR" [vName vd, vName va, vName vb]
  | .vadd vd va vb => asmLine "VADD" [vName vd, vName va, vName vb]
  | .valign vd prev next => asmLine "VALIGN" [vName vd, vName prev, vName next]
  | .vmsg1 vd prev next => asmLine "VMSG1" [vName vd, vName prev, vName next]
  | .vmsg2 vd mixed later => asmLine "VMSG2" [vName vd, vName mixed, vName later]
  | .vsched vd w0 w1 w2 w3 => asmLine "VSCHED" [vName vd, vName w0, vName w1, vName w2, vName w3]
  | .vswap vd va => asmLine "VSWAP" [vName vd, vName va]
  | .vaddk vd va g => asmLine "VADDK" [vName vd, vName va, toString g.val]
  | .vrnd2 vd cdgh abef wk => asmLine "VRND2" [vName vd, vName cdgh, vName abef, vName wk]
  | .vrnd4 abef cdgh w g => asmLine "VRND4" [vName abef, vName cdgh, vName w, toString g.val]

end Sys2Proof
end

