-- ==== Sys2Proof/Config.lean ====
section
/-! DEFINITION. The implementation parameters of 00_scope.md R7, as named constants. The spec leaves no value free
after an instruction, so there is no opaque constant here: what it leaves open is a reset value
(notes/assumptions/1.md, 3.md) or the order of events, which is data in State (4.md). -/

namespace Sys2Proof.Config

/-- `LANES`: words per lane group (R7). -/
abbrev lanes : Nat := 4

/-- `STATE_WORDS` (R7). -/
abbrev stateWords : Nat := 8

/-- `BLOCK_BYTES` (R7). -/
abbrev blockBytes : Nat := 64

/-- `BLOCK_WORDS`: big-endian words of a block (R7). -/
abbrev blockWords : Nat := 16

/-- `ROUNDS` (R7). -/
abbrev rounds : Nat := 64

/-- `ROUNDS_PER_PAIR` (R7). -/
abbrev roundsPerPair : Nat := 2

/-- `ROUNDS_PER_GROUP` (R7). -/
abbrev roundsPerGroup : Nat := 4

/-- `GROUPS`: round groups of a compression (R7). -/
abbrev groups : Nat := 16

/-- `DIRECT_GROUPS`: the groups that take block words directly (R7). -/
abbrev directGroups : Nat := 4

/-- `WINDOW`: schedule slots of `WIN` (R7). -/
abbrev window : Nat := 5

/-- `K_WORDS`: round constants (R7). -/
abbrev kWords : Nat := 64

/-- `SHAMT_MAX`: the largest shift amount (R7). -/
abbrev shamtMax : Nat := 31

/-- `NV`: scratch lane-group registers (R7, the spec's decision D6). -/
abbrev nv : Nat := 16

/-- Sequencer steps of one compression: one LOAD, the round groups, one FINAL (43_compressor.md R170). -/
abbrev stepsPerBlock : Nat := 18

end Sys2Proof.Config
end

