-- ==== Sys2Proof/Machine/State.lean ====
section
/-! DEFINITION. The state of one compressor instance, the reasons a step can stop, and the state after reset. State is
plain data and holds everything 10_state.md gives the block (R20 to R36), the written marks of 70_reset_and_hazards.md R264,
and one field of the model's own: the events still to come at the ports. -/

namespace Sys2Proof.Machine

/-- The sequencer phase (10_state.md R34). -/
inductive Phase where
  /-- 0: no compression running. -/
  | idle
  /-- 1: COMPRESS accepted, load not yet done. -/
  | load
  /-- 2: round group GRP is next. -/
  | rounds
  /-- 3: all 16 groups done, feed-forward next. -/
  | final
  deriving DecidableEq, Repr

/-- A cell whose reset value the spec leaves unspecified and whose written mark a model keeps (70_reset_and_hazards.md R264). -/
inductive StateCell where
  /-- A word of STATE. -/
  | hash (i : StateIdx)
  /-- A byte of BLK. -/
  | blk (a : ByteIdx)
  /-- A lane of a V register. -/
  | lane (r : VReg) (j : LaneIdx)
  deriving DecidableEq, Repr

/-- What can happen at the block's ports (30_encoding.md R70), and the sequencer's turns among it: the free schedule of
43_compressor.md R172 and 93_implementation_defined.md I14 as data (notes/assumptions/4.md). -/
inductive PortEvent where
  /-- A rising edge with `cmd_valid = 1`: the host presents `cmd` and `data_in`. -/
  | command (cmd dataIn : Word)
  /-- The sequencer takes its enabled step, if it has one. -/
  | sequencerTurn
  /-- A rising edge with `rst = 1`. -/
  | reset
  deriving DecidableEq, Repr

/-- Why the machine stops. -/
inductive Fault where
  /-- The model-only fault UnwrittenRead(cell) of 70_reset_and_hazards.md R264. `exec` and `step` raise it for a BLK byte, in
  RDWORD, COMPRESS and the LOAD step (notes/assumptions/3.md); `checkedExec` and `checkedStep` of Safety.lean raise it for every
  kind of cell. Safe: the hardware returns some value there and goes on, so the model only proves less. -/
  | unwrittenRead (cell : StateCell)
  /-- A stuck state: PHASE = ROUNDS with GRP above 15, for which 43_compressor.md R170 gives no step. Raised by the sequencer's
  turn. Safe: no run from reset reaches it (notes/assumptions/6.md). -/
  | sequencerStuck
  deriving DecidableEq, Repr

/-- Why an instruction has no meaning in the model. -/
inductive Refusal where
  /-- Raised by an arm of `exec` whose instruction has no meaning yet; no arm is left so. Safe. -/
  | notModelled (mnemonic : String)
  deriving DecidableEq, Repr

/-- Everything the spec gives the block, and the events still to come. -/
structure State where
  /-- STATE[0..7], the running digest (10_state.md R20). -/
  hash : Vector Word 8
  /-- One written mark per STATE word (70_reset_and_hazards.md R264). -/
  hashMarks : Vector Bool 8
  /-- BLK[0..63]: the written bytes and their addresses, addresses rising (10_state.md R23; notes/assumptions/3.md). -/
  blk : List Host.Cell
  /-- V[0..15], the scratch lane-group registers (10_state.md R26). -/
  v : Vector LaneGroup 16
  /-- One written mark per lane of V (10_state.md R27). -/
  vMarks : Vector (Lanes Bool) 16
  /-- ABEF, working variables A, B, E, F (10_state.md R28, R30). -/
  abef : LaneGroup
  /-- CDGH, working variables C, D, G, H (10_state.md R28, R30). -/
  cdgh : LaneGroup
  /-- WIN[0..4], the message-schedule window (10_state.md R31). -/
  win : Vector LaneGroup 5
  /-- PHASE (10_state.md R34). -/
  phase : Phase
  /-- GRP, the round-group counter (10_state.md R33). -/
  grp : BitVec 5
  /-- STATUS.ERR, sticky (10_state.md R35). -/
  err : Bool
  /-- STATUS.ERRCODE, the code of the first error (10_state.md R35). -/
  errCode : BitVec 4
  /-- DOUT, the data-out register (10_state.md R36). -/
  dout : Word
  /-- The events still to come at the ports, oldest first: the model's own field (notes/assumptions/4.md). -/
  port : List PortEvent
  deriving DecidableEq, Repr

/-- What one transition answers. -/
abbrev Result := Host.Outcome State Fault Refusal

/-- The lane group of four zero words: the model's value where the spec gives no reset value (notes/assumptions/1.md). -/
abbrev zeroGroup : LaneGroup := ⟨0, 0, 0, 0⟩

/-- Four marks, none written. -/
abbrev noMarks : Lanes Bool := ⟨false, false, false, false⟩

/-- The machine right after reset (70_reset_and_hazards.md R261): PHASE IDLE; GRP, ERR, ERRCODE and DOUT zero; every cell
unwritten. STATE, V, ABEF, CDGH and WIN are unspecified there and hold 0 here (notes/assumptions/1.md); nothing is pending at
the ports (notes/assumptions/4.md). -/
def State.reset : State where
  hash := Vector.replicate 8 0
  hashMarks := Vector.replicate 8 false
  blk := []
  v := Vector.replicate 16 zeroGroup
  vMarks := Vector.replicate 16 noMarks
  abef := zeroGroup
  cdgh := zeroGroup
  win := Vector.replicate 5 zeroGroup
  phase := .idle
  grp := 0
  err := false
  errCode := 0
  dout := 0
  port := []

end Sys2Proof.Machine
end

