-- ==== Sys2Proof/Machine/Flags.lean ====
section
/-! DEFINITION. The STATUS register and its fields (10_state.md R34, R35) and the error codes (60_exceptions.md R231). No
command computes a flag: BUSY follows PHASE, and ERR and ERRCODE change only where an error is raised. -/

namespace Sys2Proof.Machine

/-- The 2-bit code of a phase (10_state.md R34). -/
def phaseCode : Phase → BitVec 2
  | .idle => 0
  | .load => 1
  | .rounds => 2
  | .final => 3

/-- The errors a command can raise (60_exceptions.md R231). -/
inductive ErrorKind where
  /-- The command word is illegal. -/
  | illegal
  /-- A legal command other than NOP or RDSTATUS while PHASE is not IDLE. -/
  | busy
  deriving DecidableEq, Repr

/-- The code of an error, as ERRCODE holds it (60_exceptions.md R231). -/
def errorCode : ErrorKind → BitVec 4
  | .illegal => 1
  | .busy => 2

/-- STATUS.BUSY and the port `busy`: 1 exactly when PHASE is not IDLE (10_state.md R35, 30_encoding.md R70). -/
def State.busy (s : State) : Bool := decide (s.phase ≠ .idle)

/-- STATUS: `zext_32({GRP, 2'b00, PHASE, ERRCODE, 2'b00, ERR, BUSY})` (10_state.md R35). -/
def State.status (s : State) : Word :=
  (s.grp ++ 0#2 ++ phaseCode s.phase ++ s.errCode ++ 0#2 ++ BitVec.ofBool s.err ++ BitVec.ofBool s.busy : BitVec 17).setWidth 32

/-- The port `data_out`: the DOUT register (30_encoding.md R70, 10_state.md R36). -/
def State.dataOut (s : State) : Word := s.dout

end Sys2Proof.Machine
end

