-- ==== Sys2Proof/Machine/LaneOps.lean ====
section
/-! DEFINITION. Lane groups as values: access by lane number, the lanewise operations of 00_scope.md R9, R10, the lane-group
functions of 40_lane_group.md R101 to R106, and how a group lies on a 128-bit bus (R108). -/

namespace Sys2Proof.Machine

/-- `g[j]`, lane `j` of a group (00_scope.md R10). -/
def lane {α : Type} (g : Lanes α) : LaneIdx → α
  | 0 => g.l0
  | 1 => g.l1
  | 2 => g.l2
  | 3 => g.l3

/-- The group with lane `j` replaced. -/
def setLane {α : Type} (g : Lanes α) (j : LaneIdx) (x : α) : Lanes α :=
  match j with
  | 0 => { g with l0 := x }
  | 1 => { g with l1 := x }
  | 2 => { g with l2 := x }
  | 3 => { g with l3 := x }

/-- One function applied to every lane. -/
def mapLanes (f : Word → Word) (a : LaneGroup) : LaneGroup := ⟨f a.l0, f a.l1, f a.l2, f a.l3⟩

/-- `lanewise(f, a, b)` (00_scope.md R10). -/
def lanewise (f : Word → Word → Word) (a b : LaneGroup) : LaneGroup :=
  ⟨f a.l0 b.l0, f a.l1 b.l1, f a.l2 b.l2, f a.l3 b.l3⟩

/-- `shiftRightLanes(a, n)`: logical, vacated high bits zero (40_lane_group.md R101). -/
def shiftRightLanes (a : LaneGroup) (n : Nat) : LaneGroup := mapLanes (fun x => x >>> n) a

/-- `shiftLeftLanes(a, n)`: truncated to 32 bits, vacated low bits zero (40_lane_group.md R102). -/
def shiftLeftLanes (a : LaneGroup) (n : Nat) : LaneGroup := mapLanes (fun x => x <<< n) a

/-- `orLanes(a, b)` (40_lane_group.md R103). -/
def orLanes (a b : LaneGroup) : LaneGroup := lanewise (fun x y => x ||| y) a b

/-- `xorLanes(a, b)` (40_lane_group.md R104). -/
def xorLanes (a b : LaneGroup) : LaneGroup := lanewise (fun x y => x ^^^ y) a b

/-- `addLanes(a, b)`: each lane mod 2^32, no carry between lanes (40_lane_group.md R105). -/
def addLanes (a b : LaneGroup) : LaneGroup := lanewise (fun x y => x + y) a b

/-- `rotr(x, n)` for 1 ≤ n ≤ 31 (00_scope.md R9). -/
def rotr (x : Word) (n : Nat) : Word := (x >>> n) ||| (x <<< (32 - n))

/-- `rotateRightLanes(a, n)`, built from the primitives (40_lane_group.md R106). -/
def rotateRightLanes (a : LaneGroup) (n : Nat) : LaneGroup :=
  orLanes (shiftRightLanes a n) (shiftLeftLanes a (32 - n))

/-- A lane group on a 128-bit bus: lane `j` in bits `[32j+31 : 32j]` (40_lane_group.md R108). -/
def packGroup (g : LaneGroup) : BitVec 128 := g.l3 ++ g.l2 ++ g.l1 ++ g.l0

/-- The lane group on a 128-bit bus (40_lane_group.md R108). -/
def unpackGroup (b : BitVec 128) : LaneGroup :=
  ⟨b.extractLsb' 0 32, b.extractLsb' 32 32, b.extractLsb' 64 32, b.extractLsb' 96 32⟩

/-- The operation select of the lane-group unit (40_lane_group.md R108). -/
inductive LaneSelect where
  | srl | sll | or | xor | add
  deriving DecidableEq, Repr

/-- The lane-group arithmetic unit: inputs `a`, `b`, `n` and an operation select, output `y` (40_lane_group.md R108). -/
def laneUnit (sel : LaneSelect) (a b : BitVec 128) (n : BitVec 5) : BitVec 128 :=
  packGroup <|
    match sel with
    | .srl => shiftRightLanes (unpackGroup a) n.toNat
    | .sll => shiftLeftLanes (unpackGroup a) n.toNat
    | .or => orLanes (unpackGroup a) (unpackGroup b)
    | .xor => xorLanes (unpackGroup a) (unpackGroup b)
    | .add => addLanes (unpackGroup a) (unpackGroup b)

end Sys2Proof.Machine
end

