-- ==== Sys2Proof/Machine/Ops.lean ====
section
/-! DEFINITION. The named operations over the state: the message-block memory and its byte order (20_memory.md R50 to R57,
10_state.md R24), reading and writing the registers with their written marks (70_reset_and_hazards.md R264), raising an
architectural error (60_exceptions.md R230: this block's only exception; it has no return, R235), and the BUSY gate every
command but NOP and RDSTATUS passes (R232). -/

namespace Sys2Proof.Machine

/-! ### The message-block memory -/

/-- The canonical form of BLK: addresses strictly rising, all of them in 0..63 (10_state.md R23; notes/assumptions/3.md). An
unlisted address reads as no value, so no listed entry equals what an unlisted address reads as. -/
abbrev blkWf (m : List Host.Cell) : Prop :=
  m.Pairwise (fun x y => x.1 < y.1) ∧ ∀ c ∈ m, c.1 < 64

/-- What one address of BLK holds: the listed byte, or no value for an address nothing has written (10_state.md R25). -/
def readByte : List Host.Cell → Nat → Option Byte
  | [], _ => none
  | (x, y) :: m, a => if x = a then some y else readByte m a

/-- `BLK[a] <- b`, keeping the addresses rising (44_host.md R205). -/
def writeByte (a : Nat) (b : Byte) : List Host.Cell → List Host.Cell
  | [] => [(a, b)]
  | (x, y) :: m =>
    if a < x then (a, b) :: (x, y) :: m
    else if a = x then (a, b) :: m
    else (x, y) :: writeByte a b m

/-- The address of byte `k` of block word `i`: `4*i + k` (30_encoding.md R76). -/
def byteAddr (i : WordIdx) (k : Fin 4) : ByteIdx := ⟨4 * i.val + k.val, by omega⟩

/-- `MemRead(a, 1)`, or the unwritten byte that stops it (00_scope.md R11, 70_reset_and_hazards.md R264). -/
def memRead1 (m : List Host.Cell) (a : ByteIdx) : Except StateCell Byte :=
  match readByte m a.val with
  | some b => .ok b
  | none => .error (.blk a)

/-- `M(i) = MemRead(4*i, 4) = {BLK[4i], BLK[4i+1], BLK[4i+2], BLK[4i+3]}`, big-endian (10_state.md R24), or the first unwritten
byte of the four. -/
def memRead4 (m : List Host.Cell) (i : WordIdx) : Except StateCell Word := do
  let b0 ← memRead1 m (byteAddr i 0)
  let b1 ← memRead1 m (byteAddr i 1)
  let b2 ← memRead1 m (byteAddr i 2)
  let b3 ← memRead1 m (byteAddr i 3)
  return b0 ++ b1 ++ b2 ++ b3

/-- `MemWrite(4*i, 4, x)`: the most significant byte at the lowest address (44_host.md R206, 20_memory.md R53). -/
def memWrite4 (i : WordIdx) (x : Word) (m : List Host.Cell) : List Host.Cell :=
  writeByte (byteAddr i 3) (x.extractLsb' 0 8) <|
  writeByte (byteAddr i 2) (x.extractLsb' 8 8) <|
  writeByte (byteAddr i 1) (x.extractLsb' 16 8) <|
  writeByte (byteAddr i 0) (x.extractLsb' 24 8) m

/-- Schedule group `q` of the block, 0 ≤ q ≤ 3: `⟨M(4q+3), M(4q+2), M(4q+1), M(4q)⟩` (10_state.md R29, 43_compressor.md R173), or
its first unwritten byte. -/
def readBlockGroup (m : List Host.Cell) (q : Fin 4) : Except StateCell LaneGroup := do
  let w0 ← memRead4 m ⟨4 * q.val, by omega⟩
  let w1 ← memRead4 m ⟨4 * q.val + 1, by omega⟩
  let w2 ← memRead4 m ⟨4 * q.val + 2, by omega⟩
  let w3 ← memRead4 m ⟨4 * q.val + 3, by omega⟩
  return ⟨w3, w2, w1, w0⟩

/-- The four schedule groups of the whole block, SG(0) first, or the first unwritten byte of BLK (43_compressor.md R173). -/
def readBlock (m : List Host.Cell) : Except StateCell (Lanes LaneGroup) := do
  let g0 ← readBlockGroup m 0
  let g1 ← readBlockGroup m 1
  let g2 ← readBlockGroup m 2
  let g3 ← readBlockGroup m 3
  return ⟨g0, g1, g2, g3⟩

/-! ### Registers -/

/-- `STATE[i]` (10_state.md R20). -/
def State.hashWord (s : State) (i : StateIdx) : Word := s.hash[i.val]

/-- `V[r]` (10_state.md R26). -/
def State.vGroup (s : State) (r : VReg) : LaneGroup := s.v[r.val]

/-- `V[r][j]` (10_state.md R26). -/
def State.vLane (s : State) (r : VReg) (j : LaneIdx) : Word := lane (s.vGroup r) j

/-- The slot of WIN that holds schedule group `q`: `q mod 5` (10_state.md R31). -/
def State.winSlot (s : State) (q : Nat) : LaneGroup := s.win[q % 5]'(Nat.mod_lt _ (by decide))

/-- The cell has been written since reset (70_reset_and_hazards.md R264). -/
def State.cellWritten (s : State) : StateCell → Bool
  | .hash i => s.hashMarks[i.val]
  | .blk a => (readByte s.blk a.val).isSome
  | .lane r j => lane s.vMarks[r.val] j

/-- `STATE[i] <- x`, and its mark (44_host.md R203, R200). -/
def State.writeHash (s : State) (i : StateIdx) (x : Word) : State :=
  { s with hash := s.hash.set i.val x, hashMarks := s.hashMarks.set i.val true }

/-- `V[r] <- g`: all four lanes and their marks (40_lane_group.md R100). -/
def State.writeV (s : State) (r : VReg) (g : LaneGroup) : State :=
  { s with v := s.v.set r.val g, vMarks := s.vMarks.set r.val ⟨true, true, true, true⟩ }

/-- `V[r][j] <- x`: one lane and its mark; the other lanes keep values and marks (44_host.md R208). -/
def State.writeLane (s : State) (r : VReg) (j : LaneIdx) (x : Word) : State :=
  { s with v := s.v.set r.val (setLane s.v[r.val] j x), vMarks := s.vMarks.set r.val (setLane s.vMarks[r.val] j true) }

/-- `dout <- x` (10_state.md R36). -/
def State.setDout (s : State) (x : Word) : State := { s with dout := x }

/-- BLK replaced. -/
def State.setBlk (s : State) (m : List Host.Cell) : State := { s with blk := m }

/-- The events still to come, replaced. -/
def State.setPort (s : State) (es : List PortEvent) : State := { s with port := es }

/-! ### Errors and the BUSY gate -/

/-- `raise Error(e)`: the code of the first error is kept, ERR becomes 1, and nothing else changes (60_exceptions.md R230). -/
def State.raiseError (s : State) (e : ErrorKind) : State :=
  { s with err := true, errCode := if s.err then s.errCode else errorCode e }

/-- The gate of every command but NOP and RDSTATUS: with PHASE IDLE the command runs, else it raises BUSY
(60_exceptions.md R232, 40_lane_group.md R100, 44_host.md R200). -/
def whenIdle (s : State) (run : Result) : Result :=
  if s.phase = .idle then run else .next (s.raiseError .busy)

/-- A read command: the value read goes to DOUT, or the unwritten cell stops the model (44_host.md R200,
70_reset_and_hazards.md R264). -/
def readToDout (s : State) (value : Except StateCell Word) : Result :=
  match value with
  | .ok x => .next (s.setDout x)
  | .error c => .fault (.unwrittenRead c)

/-- A datapath command with one result: refused while busy, else all four lanes of `V[vd]` are written
(40_lane_group.md R100). -/
def writeResult (s : State) (vd : VReg) (g : LaneGroup) : Result := whenIdle s (.next (s.writeV vd g))

end Sys2Proof.Machine
end

