-- ==== Sys2Proof/Machine/RoundOps.lean ====
section
/-! DEFINITION. The round constants (10_state.md R38, R39) and the round-pair digest function (42_round.md R140 to R148)
as functions, and the round-pair unit on buses (R150). -/

namespace Sys2Proof.Machine

/-! ### Round constants -/

/-- K[0..31] (10_state.md R38). -/
def kLow : List Word :=
  [0x428a2f98, 0x71374491, 0xb5c0fbcf, 0xe9b5dba5, 0x3956c25b, 0x59f111f1, 0x923f82a4, 0xab1c5ed5] ++
  [0xd807aa98, 0x12835b01, 0x243185be, 0x550c7dc3, 0x72be5d74, 0x80deb1fe, 0x9bdc06a7, 0xc19bf174] ++
  [0xe49b69c1, 0xefbe4786, 0x0fc19dc6, 0x240ca1cc, 0x2de92c6f, 0x4a7484aa, 0x5cb0a9dc, 0x76f988da] ++
  [0x983e5152, 0xa831c66d, 0xb00327c8, 0xbf597fc7, 0xc6e00bf3, 0xd5a79147, 0x06ca6351, 0x14292967]

/-- K[32..63] (10_state.md R38). -/
def kHigh : List Word :=
  [0x27b70a85, 0x2e1b2138, 0x4d2c6dfc, 0x53380d13, 0x650a7354, 0x766a0abb, 0x81c2c92e, 0x92722c85] ++
  [0xa2bfe8a1, 0xa81a664b, 0xc24b8b70, 0xc76c51a3, 0xd192e819, 0xd6990624, 0xf40e3585, 0x106aa070] ++
  [0x19a4c116, 0x1e376c08, 0x2748774c, 0x34b0bcb5, 0x391c0cb3, 0x4ed8aa4a, 0x5b9cca4f, 0x682e6ff3] ++
  [0x748f82ee, 0x78a5636f, 0x84c87814, 0x8cc70208, 0x90befffa, 0xa4506ceb, 0xbef9a3f7, 0xc67178f2]

/-- The one table of the 64 round constants (10_state.md R38). -/
def kTable : List Word := kLow ++ kHigh

/-- `K[t]`, the constant of round `t` (10_state.md R38). -/
def K (t : Fin 64) : Word := kTable.get (t.cast (by decide))

/-- `KG(g) = ⟨K[4g+3], K[4g+2], K[4g+1], K[4g]⟩` (10_state.md R39). -/
def KG (g : GroupIdx) : LaneGroup :=
  ⟨K ⟨4 * g.val + 3, by omega⟩, K ⟨4 * g.val + 2, by omega⟩, K ⟨4 * g.val + 1, by omega⟩, K ⟨4 * g.val, by omega⟩⟩

/-! ### Round functions -/

/-- Σ0 (42_round.md R140). -/
def bigSigma0 (x : Word) : Word := rotr x 2 ^^^ rotr x 13 ^^^ rotr x 22

/-- Σ1 (42_round.md R141). -/
def bigSigma1 (x : Word) : Word := rotr x 6 ^^^ rotr x 11 ^^^ rotr x 25

/-- Ch (42_round.md R142). -/
def ch (x y z : Word) : Word := z ^^^ (x &&& (y ^^^ z))

/-- Maj (42_round.md R143). -/
def maj (x y z : Word) : Word := (x &&& y) ^^^ (x &&& z) ^^^ (y &&& z)

/-- The eight working variables (42_round.md R144). -/
structure WorkVars where
  a : Word
  b : Word
  c : Word
  d : Word
  e : Word
  f : Word
  g : Word
  h : Word
  deriving DecidableEq, Repr

/-- One round, for `wk = W[t] + K[t]` (42_round.md R144). -/
def round (w : WorkVars) (wk : Word) : WorkVars :=
  let t1 := bigSigma1 w.e + ch w.e w.f w.g + wk + w.h
  let t2 := bigSigma0 w.a + maj w.a w.b w.c
  ⟨t1 + t2, w.a, w.b, w.c, t1 + w.d, w.e, w.f, w.g⟩

/-- The working variables held by ABEF and CDGH (10_state.md R28). -/
def workVarsOf (abef cdgh : LaneGroup) : WorkVars :=
  ⟨abef.l0, abef.l1, cdgh.l0, cdgh.l1, abef.l2, abef.l3, cdgh.l2, cdgh.l3⟩

/-- `⟨A, B, E, F⟩` (10_state.md R28). -/
def abefOf (w : WorkVars) : LaneGroup := ⟨w.a, w.b, w.e, w.f⟩

/-- `⟨C, D, G, H⟩` (10_state.md R28). -/
def cdghOf (w : WorkVars) : LaneGroup := ⟨w.c, w.d, w.g, w.h⟩

/-- `swapHalves(a)` (42_round.md R145). -/
def swapHalves (a : LaneGroup) : LaneGroup := ⟨a.l2, a.l3, a.l0, a.l1⟩

/-- `addKey(w, g)` (42_round.md R146). -/
def addKey (w : LaneGroup) (g : GroupIdx) : LaneGroup := addLanes w (KG g)

/-- `roundPair(cdgh, abef, wk)`: the round of `wk[3]`, then the round of `wk[2]`; the result is `⟨A2, B2, E2, F2⟩`
(42_round.md R147). -/
def roundPair (cdgh abef wk : LaneGroup) : LaneGroup :=
  abefOf (round (round (workVarsOf abef cdgh) wk.l3) wk.l2)

/-- `rounds4(abef, cdgh, w, g) = (abef', cdgh')` (42_round.md R148). -/
def rounds4 (abef cdgh w : LaneGroup) (g : GroupIdx) : LaneGroup × LaneGroup :=
  let t1 := addKey w g
  let cdgh' := roundPair cdgh abef t1
  let t2 := swapHalves t1
  let abef' := roundPair abef cdgh' t2
  (abef', cdgh')

/-- The round-pair unit on 128-bit buses (42_round.md R150). -/
def roundPairUnit (cdgh abef wk : BitVec 128) : BitVec 128 :=
  packGroup (roundPair (unpackGroup cdgh) (unpackGroup abef) (unpackGroup wk))

end Sys2Proof.Machine
end

