-- ==== Sys2Proof/Machine/ScheduleOps.lean ====
section
/-! DEFINITION. The message-schedule expander as functions on lane groups (41_schedule.md R120 to R126) and as a
combinational unit (R128). Schedule groups are in the reversed lane order of 10_state.md R29. -/

namespace Sys2Proof.Machine

/-- σ0 (41_schedule.md R120). -/
def sigma0 (x : Word) : Word := rotr x 7 ^^^ rotr x 18 ^^^ (x >>> 3)

/-- σ1 (41_schedule.md R121). -/
def sigma1 (x : Word) : Word := rotr x 17 ^^^ rotr x 19 ^^^ (x >>> 10)

/-- σ0×4, built from the lane primitives (41_schedule.md R122). -/
def sigma0Lanes (x : LaneGroup) : LaneGroup :=
  let t1 := orLanes (shiftRightLanes x 7) (shiftLeftLanes x 25)
  let t2 := orLanes (shiftRightLanes x 18) (shiftLeftLanes x 14)
  let t3 := shiftRightLanes x 3
  xorLanes (xorLanes t1 t2) t3

/-- `reassemble(prev, next) = ⟨next[3], prev[0], prev[1], prev[2]⟩` (41_schedule.md R123). -/
def reassemble (prev next : LaneGroup) : LaneGroup := ⟨next.l3, prev.l0, prev.l1, prev.l2⟩

/-- `scheduleStep1(prev, next)` (41_schedule.md R124). -/
def scheduleStep1 (prev next : LaneGroup) : LaneGroup := addLanes prev (sigma0Lanes (reassemble prev next))

/-- `scheduleStep2(mixed, later)`: `later[0]` is W[i-1] and `later[1]` is W[i-2]; each new word feeds the σ1 of the second
after it (41_schedule.md R125). -/
def scheduleStep2 (mixed later : LaneGroup) : LaneGroup :=
  let w16 := mixed.l3 + sigma1 later.l1
  let w17 := mixed.l2 + sigma1 later.l0
  let w18 := mixed.l1 + sigma1 w16
  let w19 := mixed.l0 + sigma1 w17
  ⟨w19, w18, w17, w16⟩

/-- `schedule(w0, w1, w2, w3)`, oldest group first (41_schedule.md R126). -/
def schedule (w0 w1 w2 w3 : LaneGroup) : LaneGroup :=
  let t1 := scheduleStep1 w0 w1
  let t2 := reassemble w2 w3
  let t3 := addLanes t1 t2
  scheduleStep2 t3 w3

/-- The expander unit on 128-bit buses (41_schedule.md R128). -/
def expanderUnit (w0 w1 w2 w3 : BitVec 128) : BitVec 128 :=
  packGroup (schedule (unpackGroup w0) (unpackGroup w1) (unpackGroup w2) (unpackGroup w3))

end Sys2Proof.Machine
end

