-- ==== Sys2Proof/Machine/Compressor.lean ====
section
/-! DEFINITION. The block compressor: the command COMPRESS and the sequencer's LOAD, ROUNDS and FINAL steps
(43_compressor.md R170 to R176). -/

namespace Sys2Proof.Machine

/-- COMPRESS: with every BLK byte written, `PHASE <- LOAD ; GRP <- 0` (43_compressor.md R171). The first unwritten BLK byte stops
the model (70_reset_and_hazards.md R264); unwritten STATE words do not (notes/assumptions/2.md). -/
def execCompress (s : State) : Result :=
  whenIdle s <|
    match readBlock s.blk with
    | .ok _ => .next { s with phase := .load, grp := 0 }
    | .error c => .fault (.unwrittenRead c)

/-- The LOAD step: WIN[0..3] from the block, ABEF and CDGH from STATE; WIN[4] is not written (43_compressor.md R173). -/
def loadStep (s : State) : Result :=
  match readBlock s.blk with
  | .ok b => .next { s with
      win := #v[b.l0, b.l1, b.l2, b.l3, s.win[4]]
      abef := ⟨s.hashWord 0, s.hashWord 1, s.hashWord 4, s.hashWord 5⟩
      cdgh := ⟨s.hashWord 2, s.hashWord 3, s.hashWord 6, s.hashWord 7⟩
      grp := 0
      phase := .rounds }
  | .error c => .fault (.unwrittenRead c)

/-- The schedule group of round group `g`: WIN itself in the direct phase, else computed from the four newest slots
(43_compressor.md R174, R175). -/
def roundsInput (s : State) (g : GroupIdx) : LaneGroup :=
  if g.val < Config.directGroups then s.winSlot g.val
  else schedule (s.winSlot (g.val - 4)) (s.winSlot (g.val - 3)) (s.winSlot (g.val - 2)) (s.winSlot (g.val - 1))

/-- `WIN[g mod 5] <- x` in the scheduled phase, the oldest slot overwritten; WIN unchanged in the direct phase
(43_compressor.md R174, R175). -/
def roundsWindow (s : State) (g : GroupIdx) (x : LaneGroup) : Vector LaneGroup 5 :=
  if g.val < Config.directGroups then s.win else s.win.set (g.val % 5) x (Nat.mod_lt _ (by decide))

/-- The ROUNDS step of round group `g` (43_compressor.md R174). -/
def roundsStep (s : State) (g : GroupIdx) : State :=
  let x := roundsInput s g
  let r := rounds4 s.abef s.cdgh x g
  { s with
    win := roundsWindow s g x
    abef := r.1
    cdgh := r.2
    grp := if g.val = 15 then 16 else BitVec.ofNat 5 (g.val + 1)
    phase := if g.val = 15 then .final else .rounds }

/-- The FINAL step: the feed-forward into all eight STATE words at once (43_compressor.md R176). -/
def finalStep (s : State) : State :=
  { s with
    hash := #v[s.hashWord 0 + s.abef.l0, s.hashWord 1 + s.abef.l1, s.hashWord 2 + s.cdgh.l0, s.hashWord 3 + s.cdgh.l1,
      s.hashWord 4 + s.abef.l2, s.hashWord 5 + s.abef.l3, s.hashWord 6 + s.cdgh.l2, s.hashWord 7 + s.cdgh.l3]
    hashMarks := Vector.replicate 8 true
    phase := .idle
    grp := 0 }

/-- The sequencer's turn: its one enabled step (43_compressor.md R170, R172). With PHASE IDLE no step is enabled and the turn
changes nothing; with PHASE ROUNDS and GRP above 15 no step exists and the machine is stuck (notes/assumptions/6.md). -/
def sequencerTurn (s : State) : Result :=
  match s.phase with
  | .idle => .next s
  | .load => loadStep s
  | .rounds => if h : s.grp.toNat < 16 then .next (roundsStep s ⟨s.grp.toNat, h⟩) else .fault .sequencerStuck
  | .final => .next (finalStep s)

end Sys2Proof.Machine
end

