-- ==== Sys2Proof/Machine/HostAccess.lean ====
section
/-! DEFINITION. The host access commands (44_host.md). -/

namespace Sys2Proof.Machine

/-- NOP: nothing; never BUSY (44_host.md R201). -/
def execNop (s : State) : Result := .next s

/-- RDSTATUS: `dout <- STATUS`; never BUSY, clears nothing (44_host.md R202). -/
def execRdstatus (s : State) : Result := .next (s.setDout s.status)

/-- WRSTATE: `STATE[idx] <- din` (44_host.md R203). -/
def execWrstate (idx : StateIdx) (din : Word) (s : State) : Result := whenIdle s (.next (s.writeHash idx din))

/-- RDSTATE: `dout <- STATE[idx]` (44_host.md R204; an unwritten word reads as the register's value, notes/assumptions/2.md). -/
def execRdstate (idx : StateIdx) (s : State) : Result := whenIdle s (readToDout s (.ok (s.hashWord idx)))

/-- WRBYTE: `BLK[idx] <- din[7:0]` (44_host.md R205). -/
def execWrbyte (idx : ByteIdx) (din : Word) (s : State) : Result :=
  whenIdle s (.next (s.setBlk (writeByte idx.val (din.extractLsb' 0 8) s.blk)))

/-- WRWORD: `MemWrite(4*idx, 4, din)` (44_host.md R206). -/
def execWrword (idx : WordIdx) (din : Word) (s : State) : Result := whenIdle s (.next (s.setBlk (memWrite4 idx din s.blk)))

/-- RDWORD: `dout <- MemRead(4*idx, 4)` (44_host.md R207). -/
def execRdword (idx : WordIdx) (s : State) : Result := whenIdle s (readToDout s (memRead4 s.blk idx))

/-- WRV: `V[v][lane] <- din` (44_host.md R208). -/
def execWrv (v : VReg) (j : LaneIdx) (din : Word) (s : State) : Result := whenIdle s (.next (s.writeLane v j din))

/-- RDV: `dout <- V[v][lane]` (44_host.md R209; an unwritten lane reads as the register's value, notes/assumptions/2.md). -/
def execRdv (v : VReg) (j : LaneIdx) (s : State) : Result := whenIdle s (readToDout s (.ok (s.vLane v j)))

end Sys2Proof.Machine
end

