-- ==== Sys2Proof/Machine/LaneGroupCommands.lean ====
section
/-! DEFINITION. The lane-group arithmetic commands (40_lane_group.md). Sources are read before the destination is written
(00_scope.md R12): each result is computed from the state before. -/

namespace Sys2Proof.Machine

/-- VSRL (40_lane_group.md R101). -/
def execVsrl (vd va : VReg) (shamt : Shamt) (s : State) : Result :=
  writeResult s vd (shiftRightLanes (s.vGroup va) shamt.val)

/-- VSLL (40_lane_group.md R102). -/
def execVsll (vd va : VReg) (shamt : Shamt) (s : State) : Result :=
  writeResult s vd (shiftLeftLanes (s.vGroup va) shamt.val)

/-- VOR (40_lane_group.md R103). -/
def execVor (vd va vb : VReg) (s : State) : Result := writeResult s vd (orLanes (s.vGroup va) (s.vGroup vb))

/-- VXOR (40_lane_group.md R104). -/
def execVxor (vd va vb : VReg) (s : State) : Result := writeResult s vd (xorLanes (s.vGroup va) (s.vGroup vb))

/-- VADD (40_lane_group.md R105). -/
def execVadd (vd va vb : VReg) (s : State) : Result := writeResult s vd (addLanes (s.vGroup va) (s.vGroup vb))

end Sys2Proof.Machine
end

