-- ==== Sys2Proof/Machine/RoundCommands.lean ====
section
/-! DEFINITION. The round-pair commands (42_round.md). -/

namespace Sys2Proof.Machine

/-- VSWAP (42_round.md R145). -/
def execVswap (vd va : VReg) (s : State) : Result := writeResult s vd (swapHalves (s.vGroup va))

/-- VADDK (42_round.md R146). -/
def execVaddk (vd va : VReg) (g : GroupIdx) (s : State) : Result := writeResult s vd (addKey (s.vGroup va) g)

/-- VRND2 (42_round.md R147). -/
def execVrnd2 (vd cdgh abef wk : VReg) (s : State) : Result :=
  writeResult s vd (roundPair (s.vGroup cdgh) (s.vGroup abef) (s.vGroup wk))

/-- VRND4: two results, ABEF into `vd` and CDGH into `va`; the same register for both is illegal, before BUSY is looked at
(42_round.md R148, 30_encoding.md R78, R80). -/
def execVrnd4 (abef cdgh w : VReg) (g : GroupIdx) (s : State) : Result :=
  if abef = cdgh then .next (s.raiseError .illegal)
  else
    let r := rounds4 (s.vGroup abef) (s.vGroup cdgh) (s.vGroup w) g
    whenIdle s (.next ((s.writeV abef r.1).writeV cdgh r.2))

end Sys2Proof.Machine
end

