-- ==== Sys2Proof/Machine/ScheduleCommands.lean ====
section
/-! DEFINITION. The message-schedule commands (41_schedule.md). -/

namespace Sys2Proof.Machine

/-- VALIGN (41_schedule.md R123). -/
def execValign (vd prev next : VReg) (s : State) : Result := writeResult s vd (reassemble (s.vGroup prev) (s.vGroup next))

/-- VMSG1 (41_schedule.md R124). -/
def execVmsg1 (vd prev next : VReg) (s : State) : Result := writeResult s vd (scheduleStep1 (s.vGroup prev) (s.vGroup next))

/-- VMSG2 (41_schedule.md R125). -/
def execVmsg2 (vd mixed later : VReg) (s : State) : Result :=
  writeResult s vd (scheduleStep2 (s.vGroup mixed) (s.vGroup later))

/-- VSCHED (41_schedule.md R126). -/
def execVsched (vd w0 w1 w2 w3 : VReg) (s : State) : Result :=
  writeResult s vd (schedule (s.vGroup w0) (s.vGroup w1) (s.vGroup w2) (s.vGroup w3))

end Sys2Proof.Machine
end

