-- ==== Sys2Proof/Machine/Dispatch.lean ====
section
/-! DEFINITION. One arm per command: the meaning each constructor of `Instr` has. -/

namespace Sys2Proof.Machine

/-- What an accepted or refused command does (30_encoding.md R77). -/
def exec (i : Instr) (s : State) : Host.Outcome State Fault Refusal :=
  match i with
  | .nop => Sys2Proof.Machine.execNop s
  | .rdstatus => Sys2Proof.Machine.execRdstatus s
  | .wrstate idx din => Sys2Proof.Machine.execWrstate idx din s
  | .rdstate idx => Sys2Proof.Machine.execRdstate idx s
  | .wrbyte idx din => Sys2Proof.Machine.execWrbyte idx din s
  | .wrword idx din => Sys2Proof.Machine.execWrword idx din s
  | .rdword idx => Sys2Proof.Machine.execRdword idx s
  | .wrv v j din => Sys2Proof.Machine.execWrv v j din s
  | .rdv v j => Sys2Proof.Machine.execRdv v j s
  | .compress => Sys2Proof.Machine.execCompress s
  | .vsrl vd va shamt => Sys2Proof.Machine.execVsrl vd va shamt s
  | .vsll vd va shamt => Sys2Proof.Machine.execVsll vd va shamt s
  | .vor vd va vb => Sys2Proof.Machine.execVor vd va vb s
  | .vxor vd va vb => Sys2Proof.Machine.execVxor vd va vb s
  | .vadd vd va vb => Sys2Proof.Machine.execVadd vd va vb s
  | .valign vd prev next => Sys2Proof.Machine.execValign vd prev next s
  | .vmsg1 vd prev next => Sys2Proof.Machine.execVmsg1 vd prev next s
  | .vmsg2 vd mixed later => Sys2Proof.Machine.execVmsg2 vd mixed later s
  | .vsched vd w0 w1 w2 w3 => Sys2Proof.Machine.execVsched vd w0 w1 w2 w3 s
  | .vswap vd va => Sys2Proof.Machine.execVswap vd va s
  | .vaddk vd va g => Sys2Proof.Machine.execVaddk vd va g s
  | .vrnd2 vd cdgh abef wk => Sys2Proof.Machine.execVrnd2 vd cdgh abef wk s
  | .vrnd4 abef cdgh w g => Sys2Proof.Machine.execVrnd4 abef cdgh w g s

end Sys2Proof.Machine
end

