-- ==== Sys2Proof/Machine/Port.lean ====
section
/-! DEFINITION. What one event at the ports does (30_encoding.md R70, R78, R80; 43_compressor.md R172;
70_reset_and_hazards.md R260). -/

namespace Sys2Proof.Machine

/-- A command at the port: legality first, an illegal word raising ILLEGAL even while busy; a legal one is executed
(30_encoding.md R78, R80, 60_exceptions.md R231, R233). -/
def runCommand (cmd din : Word) (s : State) : Result :=
  match decode cmd din with
  | .ok i => exec i s
  | .error _ => .next (s.raiseError .illegal)

/-- The reset transition: every piece of state takes its reset value and a running compression is abandoned; events the host
has yet to bring stay to come (70_reset_and_hazards.md R260, R261; notes/assumptions/4.md). -/
def resetTransition (s : State) : State := State.reset.setPort s.port

/-- One event, in the state that no longer has it to come. -/
def runEvent (e : PortEvent) (s : State) : Result :=
  match e with
  | .command cmd din => runCommand cmd din s
  | .sequencerTurn => sequencerTurn s
  | .reset => .next (resetTransition s)

end Sys2Proof.Machine
end

