-- ==== Sys2Proof/Machine/Step.lean ====
section
/-! DEFINITION. One transition of the machine: the next event at the ports (20_memory.md R58, R61). -/

namespace Sys2Proof.Machine

/-- One transition. The oldest event to come happens; with none to come the sequencer takes its turn, so an enabled sequencer
step is always taken in the end (43_compressor.md R172; notes/assumptions/4.md, 5.md). -/
def step (s : State) : Host.Outcome State Fault Refusal :=
  match s.port with
  | [] => sequencerTurn s
  | e :: rest => runEvent e (s.setPort rest)

/-- `s` with the instruction whose bits are `w` presented at the command port as the very next event. -/
def State.withFetchWord (s : State) (nbits w : Nat) : State :=
  s.setPort (.command (tableCmd nbits w) (tableDin nbits w) :: s.port)

end Sys2Proof.Machine
end

