-- ==== Sys2Proof/Machine/Textbook.lean ====
section
/-! DEFINITION. The whole-block functions in closed form: the message schedule W[0..63] by the recurrence of
41_schedule.md R127, the 64-round loop and `compressBlock` of 43_compressor.md R177, and `compress` over several blocks
(R178). No meaning of an instruction uses them: claims compare the machine with them. -/

namespace Sys2Proof.Machine

/-- A 64-byte message block by byte address (10_state.md R23). -/
abbrev Block := ByteIdx → Byte

/-- `M(i)`, big-endian word `i` of a block (10_state.md R24). -/
def blockWord (b : Block) (i : WordIdx) : Word :=
  b ⟨4 * i.val, by omega⟩ ++ b ⟨4 * i.val + 1, by omega⟩ ++ b ⟨4 * i.val + 2, by omega⟩ ++ b ⟨4 * i.val + 3, by omega⟩

/-- The word after sixteen schedule words, oldest first: `σ1(W[t-2]) + W[t-7] + σ0(W[t-15]) + W[t-16]` (41_schedule.md R127). -/
def nextScheduleWord (w : Vector Word 16) : Word := sigma1 w[14] + w[9] + sigma0 w[1] + w[0]

/-- The sixteen schedule words `W[t] .. W[t+15]` of a block. -/
def scheduleWindow (b : Block) : Nat → Vector Word 16
  | 0 => Vector.ofFn fun i => blockWord b i
  | t + 1 =>
    let w := scheduleWindow b t
    #v[w[1], w[2], w[3], w[4], w[5], w[6], w[7], w[8], w[9], w[10], w[11], w[12], w[13], w[14], w[15], nextScheduleWord w]

/-- `W[t]` of a block (41_schedule.md R127). -/
def scheduleWord (b : Block) (t : Nat) : Word := (scheduleWindow b t)[0]

/-- `SG(q) = ⟨W[4q+3], W[4q+2], W[4q+1], W[4q]⟩` (10_state.md R29). -/
def scheduleGroup (b : Block) (q : Nat) : LaneGroup :=
  ⟨scheduleWord b (4 * q + 3), scheduleWord b (4 * q + 2), scheduleWord b (4 * q + 1), scheduleWord b (4 * q)⟩

/-- Rounds 0 .. n-1 of a block, from the working variables `w` (43_compressor.md R177). -/
def textbookRounds (b : Block) (w : WorkVars) : (n : Nat) → n ≤ 64 → WorkVars
  | 0, _ => w
  | t + 1, h => round (textbookRounds b w t (by omega)) (scheduleWord b t + K ⟨t, by omega⟩)

/-- The working variables a hash state loads: A..H = S[0..7] (43_compressor.md R177). -/
def workVarsOfHash (h : Vector Word 8) : WorkVars := ⟨h[0], h[1], h[2], h[3], h[4], h[5], h[6], h[7]⟩

/-- The feed-forward: each word plus its working variable (43_compressor.md R177). -/
def feedForward (h : Vector Word 8) (w : WorkVars) : Vector Word 8 :=
  #v[h[0] + w.a, h[1] + w.b, h[2] + w.c, h[3] + w.d, h[4] + w.e, h[5] + w.f, h[6] + w.g, h[7] + w.h]

/-- `compressBlock(S, B)` in closed form (43_compressor.md R177). -/
def compressBlock (h : Vector Word 8) (b : Block) : Vector Word 8 :=
  feedForward h (textbookRounds b (workVarsOfHash h) 64 (Nat.le_refl 64))

/-- `compress(S, blocks)`: the blocks in order (43_compressor.md R178). -/
def compressBlocks : Vector Word 8 → List Block → Vector Word 8
  | h, [] => h
  | h, b :: bs => compressBlocks (compressBlock h b) bs

end Sys2Proof.Machine
end

