-- ==== Sys2Proof/Machine/Pseudo.lean ====
section
/-! DEFINITION. The pseudo-instructions of 30_encoding.md R82 and the host programs built on them: each stands for its
expansion and has no encoding. -/

namespace Sys2Proof.Machine

/-- The pseudo-instructions that expand to a fixed sequence (30_encoding.md R82). -/
inductive Pseudo where
  /-- VMOV Vd, Va. -/
  | vmov (vd va : VReg)
  /-- VZERO Vd, Va. -/
  | vzero (vd va : VReg)
  /-- VROTR Vd, Va, n, Vt. -/
  | vrotr (vd va : VReg) (n : Shamt) (vt : VReg)
  /-- WRLANES Vv, x0, x1, x2, x3. -/
  | wrlanes (v : VReg) (x0 x1 x2 x3 : Word)
  deriving DecidableEq, Repr

/-- `32 - n` as a shift amount (30_encoding.md R82, conditions 1 ≤ n ≤ 31). DESIGN CHOICE: for n = 0, outside the condition, it
is 0; the spec gives no expansion there, and no field encodes 32 (R76; notes/assumptions/15.md). -/
def oppositeShamt (n : Shamt) : Shamt := ⟨(32 - n.val) % 32, Nat.mod_lt _ (by decide)⟩

/-- The expansion of a pseudo-instruction (30_encoding.md R82; VROTR with n = 0: notes/assumptions/15.md). -/
def expandPseudo : Pseudo → List Instr
  | .vmov vd va => [.vor vd va va]
  | .vzero vd va => [.vxor vd va va]
  | .vrotr vd va n vt => [.vsrl vt va n, .vsll vd va (oppositeShamt n), .vor vd vd vt]
  | .wrlanes v x0 x1 x2 x3 => [.wrv v 0 x0, .wrv v 1 x1, .wrv v 2 x2, .wrv v 3 x3]

/-- Several commands one after another, with no sequencer step between them, stopping at the first that stops. -/
def runCommands : List Instr → State → Result
  | [], s => .next s
  | i :: is, s =>
    match exec i s with
    | .next t => runCommands is t
    | .fault f => .fault f
    | .refused r => .refused r

/-- The host-side loop WAITIDLE: RDSTATUS, repeated while `DOUT[0] = 1`, at most `fuel` times. The sequencer takes one turn
after each poll that reads busy (30_encoding.md R82, 20_memory.md R63; notes/assumptions/10.md). -/
def waitIdle : Nat → State → Result
  | 0, s => .next s
  | fuel + 1, s =>
    match execRdstatus s with
    | .next t =>
      if t.dout.getLsbD 0 then
        match sequencerTurn t with
        | .next u => waitIdle fuel u
        | .fault f => .fault f
        | .refused r => .refused r
      else .next t
    | .fault f => .fault f
    | .refused r => .refused r

/-- The commands of HASHBLOCK before its WAITIDLE: WRBYTE of every byte in order, then COMPRESS (30_encoding.md R82). -/
def hashBlockCommands (b : Block) : List Instr :=
  (List.finRange 64).map (fun k => Instr.wrbyte k ((b k).setWidth 32)) ++ [.compress]

/-- HASHBLOCK b[0..63] (30_encoding.md R82): its 19th poll, after the 18 sequencer steps, reads idle. -/
def hashBlock (b : Block) (s : State) : Result :=
  match runCommands (hashBlockCommands b) s with
  | .next t => waitIdle (Config.stepsPerBlock + 1) t
  | .fault f => .fault f
  | .refused r => .refused r

/-- The host's way to compress several blocks: HASHBLOCK of each in order (43_compressor.md R178). -/
def hashBlocks : List Block → State → Result
  | [], s => .next s
  | b :: bs, s =>
    match hashBlock b s with
    | .next t => hashBlocks bs t
    | .fault f => .fault f
    | .refused r => .refused r

end Sys2Proof.Machine
end

