-- ==== Sys2Proof/Machine/Operands.lean ====
section
/-! DEFINITION. Which cells each command reads: the "Reads" line of its rule, cell by cell, in the order the rule lists them.
This is what the model-only fault UnwrittenRead is about (70_reset_and_hazards.md R264); Safety.lean uses it. -/

namespace Sys2Proof.Machine

/-- All four lanes of a register, lane 0 first. -/
def allLanes (r : VReg) : List StateCell := [.lane r 0, .lane r 1, .lane r 2, .lane r 3]

/-- The four bytes of a block word (44_host.md R207). -/
def wordCells (i : WordIdx) : List StateCell :=
  [.blk (byteAddr i 0), .blk (byteAddr i 1), .blk (byteAddr i 2), .blk (byteAddr i 3)]

/-- Every STATE word, STATE[0] first. -/
def allHashCells : List StateCell := (List.finRange 8).map .hash

/-- Every BLK byte, BLK[0] first. -/
def allBlkCells : List StateCell := (List.finRange 64).map .blk

/-- The cells a command reads and that must have been written, in the order of its rule; for COMPRESS, the STATE words and
then the BLK bytes (43_compressor.md R171; notes/assumptions/7.md). -/
def cellsRead : Instr → List StateCell
  | .nop => []
  | .rdstatus => []
  | .wrstate _ _ => []
  | .rdstate idx => [.hash idx]
  | .wrbyte _ _ => []
  | .wrword _ _ => []
  | .rdword idx => wordCells idx
  | .wrv _ _ _ => []
  | .rdv v j => [.lane v j]
  | .compress => allHashCells ++ allBlkCells
  | .vsrl _ va _ => allLanes va
  | .vsll _ va _ => allLanes va
  | .vor _ va vb => allLanes va ++ allLanes vb
  | .vxor _ va vb => allLanes va ++ allLanes vb
  | .vadd _ va vb => allLanes va ++ allLanes vb
  | .valign _ prev next => [.lane prev 0, .lane prev 1, .lane prev 2, .lane next 3]
  | .vmsg1 _ prev next => allLanes prev ++ [.lane next 3]
  | .vmsg2 _ mixed later => allLanes mixed ++ [.lane later 0, .lane later 1]
  | .vsched _ w0 w1 w2 w3 =>
    allLanes w0 ++ [.lane w1 3] ++ [.lane w2 0, .lane w2 1, .lane w2 2] ++ [.lane w3 0, .lane w3 1, .lane w3 3]
  | .vswap _ va => allLanes va
  | .vaddk _ va _ => allLanes va
  | .vrnd2 _ cdgh abef wk => allLanes cdgh ++ allLanes abef ++ [.lane wk 2, .lane wk 3]
  | .vrnd4 abef cdgh w _ => allLanes abef ++ allLanes cdgh ++ allLanes w

/-- The registers whose four lanes a datapath command writes (40_lane_group.md R100); none for any other command. -/
def destinations : Instr → List VReg
  | .nop | .rdstatus | .wrstate _ _ | .rdstate _ | .wrbyte _ _ | .wrword _ _ | .rdword _ | .wrv _ _ _ | .rdv _ _ => []
  | .compress => []
  | .vsrl vd _ _ => [vd]
  | .vsll vd _ _ => [vd]
  | .vor vd _ _ => [vd]
  | .vxor vd _ _ => [vd]
  | .vadd vd _ _ => [vd]
  | .valign vd _ _ => [vd]
  | .vmsg1 vd _ _ => [vd]
  | .vmsg2 vd _ _ => [vd]
  | .vsched vd _ _ _ _ => [vd]
  | .vswap vd _ => [vd]
  | .vaddk vd _ _ => [vd]
  | .vrnd2 vd _ _ _ => [vd]
  | .vrnd4 abef cdgh _ _ => [abef, cdgh]

/-- The first unwritten cell a command would read, if any (70_reset_and_hazards.md R264). -/
def firstUnwritten (i : Instr) (s : State) : Option StateCell :=
  (cellsRead i).find? fun c => !s.cellWritten c

end Sys2Proof.Machine
end

