-- ==== Sys2Proof/Safety.lean ====
section
/-! DEFINITION. What counts as a safe run: the states the block can be in (`State.Legal` and its parts), running compressions
on the textbook's course (`State.OnCourse`), the checked machine that takes the model-only fault of 70_reset_and_hazards.md
R264 for every kind of cell, and the terms claims use. -/

namespace Sys2Proof.Machine

/-! ### Legal states -/

/-- PHASE and GRP go together as 10_state.md R33 says: GRP is 0..15 in ROUNDS, 16 in FINAL and 0 otherwise. -/
def State.SequencerLegal (s : State) : Prop :=
  match s.phase with
  | .idle => s.grp = 0
  | .load => s.grp = 0
  | .rounds => s.grp.toNat < 16
  | .final => s.grp = 16

/-- ERR and ERRCODE go together as 10_state.md R35 and 60_exceptions.md R231 say: 0 with no error, else the code of ILLEGAL or
BUSY; codes 3..15 are never produced. -/
def State.ErrorLegal (s : State) : Prop :=
  (s.err = false ∧ s.errCode = 0) ∨ (s.err = true ∧ (s.errCode = 1 ∨ s.errCode = 2))

/-- BLK is in canonical form (notes/assumptions/3.md). -/
def State.BlkLegal (s : State) : Prop := blkWf s.blk

/-- Every BLK byte has been written (70_reset_and_hazards.md R262). -/
def State.BlkFull (s : State) : Prop := ∀ a : ByteIdx, (readByte s.blk a.val).isSome = true

/-- While a compression runs, every BLK byte has been written: COMPRESS checks it and no command can undo it
(43_compressor.md R171). -/
def State.BusyBlkFull (s : State) : Prop := s.phase ≠ .idle → s.BlkFull

/-- The states the block can be in. -/
structure State.Legal (s : State) : Prop where
  sequencer : s.SequencerLegal
  error : s.ErrorLegal
  blk : s.BlkLegal
  busyBlk : s.BusyBlkFull

/-- BLK holds the block `b`, every byte written. -/
def State.HoldsBlock (s : State) (b : Block) : Prop := ∀ a : ByteIdx, readByte s.blk a.val = some (b a)

/-! ### Running compressions -/

/-- The compression of block `b` is where the textbook's is: BLK holds `b`; before round group `g` the working variables are
those after `4g` textbook rounds from STATE, and the window holds the schedule groups of 10_state.md R32; before FINAL they
are those after all 64 rounds (43_compressor.md R177). -/
structure State.FollowsTextbook (s : State) (b : Block) : Prop where
  block : s.HoldsBlock b
  rounds : s.phase = .rounds → ∃ h : s.grp.toNat < 16,
    workVarsOf s.abef s.cdgh = textbookRounds b (workVarsOfHash s.hash) (4 * s.grp.toNat) (by omega) ∧
    ∀ q, s.grp.toNat - 5 ≤ q → q ≤ max 3 (s.grp.toNat - 1) → s.winSlot q = scheduleGroup b q
  final : s.phase = .final →
    workVarsOf s.abef s.cdgh = textbookRounds b (workVarsOfHash s.hash) 64 (Nat.le_refl 64)

/-- A running compression is the textbook's compression of the block BLK holds. -/
def State.OnCourse (s : State) : Prop := s.phase ≠ .idle → ∃ b, s.FollowsTextbook b

/-! ### The checked machine -/

/-- A command with the model-only fault for every kind of cell: legality, then BUSY, then UnwrittenRead
(40_lane_group.md R100, 44_host.md R200, 70_reset_and_hazards.md R264). -/
def checkedExec (i : Instr) (s : State) : Result :=
  if i.wf = true ∧ s.phase = .idle then
    match firstUnwritten i s with
    | some c => .fault (.unwrittenRead c)
    | none => exec i s
  else exec i s

/-- The unwritten cell the next event would read, if any. -/
def unwrittenAhead (s : State) : Option StateCell :=
  match s.port with
  | .command cmd din :: _ =>
    match decode cmd din with
    | .ok i => if s.phase = .idle then firstUnwritten i s else none
    | .error _ => none
  | _ => none

/-- One transition with the model-only fault for every kind of cell (70_reset_and_hazards.md R264). -/
def checkedStep (s : State) : Result :=
  match unwrittenAhead s with
  | some c => .fault (.unwrittenRead c)
  | none => step s

/-- `s` and `t` are the same but for the values of STATE words and V lanes nothing has written: what 70_reset_and_hazards.md R264
says no claim may depend on. -/
structure SameWritten (s t : State) : Prop where
  hashMarks : t.hashMarks = s.hashMarks
  vMarks : t.vMarks = s.vMarks
  hash : ∀ i, s.cellWritten (.hash i) = true → t.hashWord i = s.hashWord i
  v : ∀ r j, s.cellWritten (.lane r j) = true → t.vLane r j = s.vLane r j
  rest : t = { s with hash := t.hash, v := t.v }

/-- While a compression runs, every STATE word has been written: the checked machine's COMPRESS checks it
(43_compressor.md R171). -/
def State.BusyHashWritten (s : State) : Prop := s.phase ≠ .idle → ∀ i, s.cellWritten (.hash i) = true

/-! ### Runs -/

/-- `k` transitions, stopping at the first that stops. -/
def runSteps : Nat → State → Result
  | 0, s => .next s
  | k + 1, s =>
    match step s with
    | .next t => runSteps k t
    | .fault f => .fault f
    | .refused r => .refused r

/-- A run of `k` transitions that neither stops nor records an error (60_exceptions.md R234). -/
def CleanRun (k : Nat) (s : State) : Prop := ∃ t, runSteps k s = .next t ∧ t.err = false

end Sys2Proof.Machine
end

