-- ==== Sys2Proof/Certificates/Slice0/Obligations.lean ====
section
/-! DEFINITION. The statements for the provers. `Sys2Proof.Claims` holds the terms they share: the command formats of
30_encoding.md R72 to R75, frames, and the parts of a command's rule. -/

namespace Sys2Proof.Claims

open Machine

/-! ### Command formats, field by field -/

/-- Format N: opcode, 24 bits 0 (30_encoding.md R72). -/
def formatN (opcode : Nat) : Word := BitVec.ofNat 8 opcode ++ 0#24

/-- Format I: opcode, `v`, fourteen bits 0, `idx` (30_encoding.md R73). -/
def formatI (opcode v idx : Nat) : Word := BitVec.ofNat 8 opcode ++ BitVec.ofNat 4 v ++ 0#14 ++ BitVec.ofNat 6 idx

/-- Format S: opcode, `vd`, `va`, eleven bits 0, `shamt` (30_encoding.md R74). -/
def formatS (opcode vd va shamt : Nat) : Word :=
  BitVec.ofNat 8 opcode ++ BitVec.ofNat 4 vd ++ BitVec.ofNat 4 va ++ 0#11 ++ BitVec.ofNat 5 shamt

/-- Format R: opcode, `vd`, `va`, `vb`, `vc`, `ve`, `imm4` (30_encoding.md R75). -/
def formatR (opcode vd va vb vc ve imm4 : Nat) : Word :=
  BitVec.ofNat 8 opcode ++ BitVec.ofNat 4 vd ++ BitVec.ofNat 4 va ++ BitVec.ofNat 4 vb ++ BitVec.ofNat 4 vc ++
    BitVec.ofNat 4 ve ++ BitVec.ofNat 4 imm4

/-! ### Frames -/

/-- Nothing but the registers `vs` (all four lanes, now written) differs: every other register, every byte of BLK and every
other piece of state is as before. -/
structure OnlyRegisters (vs : List VReg) (s t : State) : Prop where
  marked : ∀ r ∈ vs, ∀ j, t.cellWritten (.lane r j) = true
  others : ∀ r, r ∉ vs → t.vGroup r = s.vGroup r ∧ ∀ j, t.cellWritten (.lane r j) = s.cellWritten (.lane r j)
  memory : ∀ a, readByte t.blk a = readByte s.blk a
  rest : t = { s with v := t.v, vMarks := t.vMarks }

/-- Nothing but DOUT differs. -/
structure OnlyDout (s t : State) : Prop where
  memory : ∀ a, readByte t.blk a = readByte s.blk a
  rest : t = { s with dout := t.dout }

/-- Nothing but the bytes of BLK at the addresses `stored` differs, and these are now written. -/
structure OnlyBytes (stored : List ByteIdx) (s t : State) : Prop where
  marked : ∀ a ∈ stored, t.cellWritten (.blk a) = true
  others : ∀ a : Nat, (∀ b ∈ stored, a ≠ b.val) → readByte t.blk a = readByte s.blk a
  rest : t = { s with blk := t.blk }

/-! ### The parts of a command's rule -/

/-- Every cell of the list has been written. -/
def AllWritten (reads : List StateCell) (s : State) : Prop := ∀ c ∈ reads, s.cellWritten c = true

/-- While a compression runs the command raises BUSY and does nothing else (60_exceptions.md R232), in both machines. -/
def RefusedWhileBusy (i : Instr) : Prop :=
  ∀ s, s.phase ≠ .idle → exec i s = .next (s.raiseError .busy) ∧ checkedExec i s = .next (s.raiseError .busy)

/-- With PHASE IDLE and some cell of `reads` unwritten, the checked machine stops on such a cell (70_reset_and_hazards.md
R264). -/
def FaultsOnUnwritten (i : Instr) (reads : List StateCell) : Prop :=
  ∀ s, s.phase = .idle → ¬ AllWritten reads s →
    ∃ c ∈ reads, s.cellWritten c = false ∧ checkedExec i s = .fault (.unwrittenRead c)

/-- The command completes, in both machines, in a state with property `P`. -/
def Completes (i : Instr) (s : State) (P : State → Prop) : Prop :=
  ∃ t, exec i s = .next t ∧ checkedExec i s = .next t ∧ P t

/-- `word`, whatever the data word with it, is the command `i`, and no other word is. -/
def SpelledBy (i : Instr) (word : Word) : Prop := ∀ cmd din, decode cmd din = .ok i ↔ cmd = word

/-- `word` with the data word `din` is the command `i`, and nothing else is. -/
def SpelledWithData (i : Instr) (word din : Word) : Prop := ∀ cmd d, decode cmd d = .ok i ↔ cmd = word ∧ d = din

/-- The rule of a datapath command with one result (40_lane_group.md R100): its word alone decodes to it; with PHASE IDLE
and the lanes it reads written it writes its result, computed from the state before, into `vd` and changes nothing else; on
an unwritten lane the checked machine stops; while busy it is refused. -/
structure DatapathRule (i : Instr) (word : Word) (vd : VReg) (reads : List StateCell) (result : State → LaneGroup) : Prop where
  spelled : SpelledBy i word
  runs : ∀ s, s.phase = .idle → AllWritten reads s →
    Completes i s fun t => t.vGroup vd = result s ∧ OnlyRegisters [vd] s t
  faults : FaultsOnUnwritten i reads
  busy : RefusedWhileBusy i

/-- The four lanes of a register. -/
def lanesOf (r : VReg) : List StateCell := [.lane r 0, .lane r 1, .lane r 2, .lane r 3]

/-- The four bytes of block word `idx`, by the address the meaning computes. -/
def bytesOfWord (idx : WordIdx) : List ByteIdx := [byteAddr idx 0, byteAddr idx 1, byteAddr idx 2, byteAddr idx 3]

/-! ### What happens next at the ports -/

/-- The next event is a legal command, and it is `i`. -/
def NextCommand (s : State) (i : Instr) : Prop := ∃ cmd din rest, s.port = .command cmd din :: rest ∧ decode cmd din = .ok i

/-- The next event is a sequencer turn, or none is pending and the sequencer takes its turn. -/
def NextTurn (s : State) : Prop := s.port = [] ∨ ∃ rest, s.port = .sequencerTurn :: rest

/-- The next event is a reset. -/
def NextReset (s : State) : Prop := ∃ rest, s.port = .reset :: rest

/-- The next event is an illegal word, or a command the busy block refuses. -/
def NextRaises (s : State) : Prop :=
  (∃ cmd din rest r, s.port = .command cmd din :: rest ∧ decode cmd din = .error r) ∨
  (s.phase ≠ .idle ∧ ∃ i, NextCommand s i ∧ i ≠ .nop ∧ i ≠ .rdstatus)

/-- The window rotation of 43_compressor.md R175, row by row: the slots round group `g` reads as `(w0, w1, w2, w3)`, and the
slot it writes. -/
def windowRow : Nat → Fin 5 × Fin 5 × Fin 5 × Fin 5 × Fin 5
  | 4 => (0, 1, 2, 3, 4)
  | 5 => (1, 2, 3, 4, 0)
  | 6 => (2, 3, 4, 0, 1)
  | 7 => (3, 4, 0, 1, 2)
  | 8 => (4, 0, 1, 2, 3)
  | 9 => (0, 1, 2, 3, 4)
  | 10 => (1, 2, 3, 4, 0)
  | 11 => (2, 3, 4, 0, 1)
  | 12 => (3, 4, 0, 1, 2)
  | 13 => (4, 0, 1, 2, 3)
  | 14 => (0, 1, 2, 3, 4)
  | _ => (1, 2, 3, 4, 0)

end Sys2Proof.Claims

open Sys2Proof Sys2Proof.Machine Sys2Proof.Claims

/-! ## Encoding -/

/-- 30_encoding.md R71 to R78: decoding the encoded words of any legal instruction gives it back, every operand at every
value. -/
def Obligations.DecodeAfterEncodeIsIdentity : Prop :=
  ∀ i : Instr, i.wf = true → decode (encode i).1 (encode i).2 = .ok i

/-- 30_encoding.md R71 to R78: a legal command word has one meaning, and every bit of it is in the instruction. -/
def Obligations.LegalWordHasOneEncoding : Prop :=
  ∀ (cmd din : Word) (i : Instr), decode cmd din = .ok i →
    i.wf = true ∧ (encode i).1 = cmd ∧ (i.isWrite = true → (encode i).2 = din)

/-- 30_encoding.md R78, R79: a word is legal exactly when it matches exactly one row and is no VRND4 with `vd = va`; any
other word raises ILLEGAL and does nothing else; no two rows match one word; every word with an opcode outside the map is
illegal. -/
def Obligations.WordIsLegalWhenOneRowMatches : Prop :=
  (∀ cmd din : Word, (∃ i, decode cmd din = .ok i) ↔
    ((∃! r, r ∈ opcodeTable ∧ cmd &&& r.mask = r.pattern) ∧
      ¬ (cmd.extractLsb' 24 8 = 0x43#8 ∧ cmd.extractLsb' 20 4 = cmd.extractLsb' 16 4))) ∧
  (∀ (cmd din : Word) (s : State), (∀ i, decode cmd din ≠ .ok i) → runCommand cmd din s = .next (s.raiseError .illegal)) ∧
  (∀ (cmd : Word) (r r' : OpcodeRow), r ∈ opcodeTable → r' ∈ opcodeTable →
    cmd &&& r.mask = r.pattern → cmd &&& r'.mask = r'.pattern → r = r') ∧
  ∀ cmd din : Word,
    (let op := (cmd.extractLsb' 24 8).toNat
     (0x09 ≤ op ∧ op ≤ 0x0F) ∨ (0x11 ≤ op ∧ op ≤ 0x1F) ∨ (0x25 ≤ op ∧ op ≤ 0x2F) ∨ (0x34 ≤ op ∧ op ≤ 0x3F) ∨ 0x44 ≤ op) →
    decode cmd din = .error .reservedOpcode

/-- 30_encoding.md R76: no command but the four write commands reads `din`, and WRBYTE reads only `din[7:0]`. -/
def Obligations.DataWordBitsThatAreIgnored : Prop :=
  (∀ cmd din din' : Word, cmd.extractLsb' 24 8 ∉ [0x02#8, 0x04#8, 0x05#8, 0x07#8] → decode cmd din = decode cmd din') ∧
  ∀ (a : ByteIdx) (din din' : Word) (s : State), din.extractLsb' 0 8 = din'.extractLsb' 0 8 →
    exec (.wrbyte a din) s = exec (.wrbyte a din') s

/-- 30_encoding.md R81 and 95_test_vectors.md V-E2 to V-E4: words of the spec's own examples decode to the commands they stand
for, or are illegal. -/
def Obligations.ExampleWordsDecode : Prop :=
  decode 0x02000003 0xa54ff53a = .ok (.wrstate 3 0xa54ff53a) ∧
  decode 0x0400003F 0x18 = .ok (.wrbyte 63 0x18) ∧
  decode 0x07500003 0x61626380 = .ok (.wrv 5 3 0x61626380) ∧
  decode 0x10000000 0 = .ok .compress ∧
  decode 0x21200019 0 = .ok (.vsll 2 0 25) ∧
  decode 0x33401230 0 = .ok (.vsched 4 0 1 2 3) ∧
  decode 0x42BCDA00 0 = .ok (.vrnd2 11 12 13 10) ∧
  decode 0x43DC0000 0 = .ok (.vrnd4 13 12 0 0) ∧
  decode 0x02000008 0 = .error .mustBeZeroBit ∧
  decode 0x43110000 0 = .error .vrnd4SameRegister

/-! ## One transition -/

/-- 20_memory.md R58, R61, 30_encoding.md R70, R80: when the next event is a command whose word decodes to `i`, the
transition is `exec i` of the state that no longer has the event to come, and the checked machine's is `checkedExec i` of
it. -/
def Obligations.StepRunsTheDecodedCommand : Prop :=
  ∀ (s : State) (cmd din : Word) (rest : List PortEvent) (i : Instr),
    s.port = .command cmd din :: rest → decode cmd din = .ok i →
    step s = exec i (s.setPort rest) ∧ checkedStep s = checkedExec i (s.setPort rest)

/-- 60_exceptions.md R231, R233, 30_encoding.md R80: an illegal word raises ILLEGAL, busy or not. -/
def Obligations.IllegalWordRaisesIllegal : Prop :=
  ∀ (s : State) (cmd din : Word) (rest : List PortEvent) (r : IllegalReason),
    s.port = .command cmd din :: rest → decode cmd din = .error r →
    step s = .next ((s.setPort rest).raiseError .illegal) ∧ checkedStep s = .next ((s.setPort rest).raiseError .illegal)

/-- 60_exceptions.md R230, R231: raising an error records the first code, sets ERR, and changes nothing else. -/
def Obligations.RaiseErrorRecordsFirstCode : Prop :=
  ∀ (s : State) (e : ErrorKind),
    let t := s.raiseError e
    t.err = true ∧
    (s.err = false → t.errCode = match e with | .illegal => 1 | .busy => 2) ∧
    (s.err = true → t.errCode = s.errCode) ∧
    t = { s with err := t.err, errCode := t.errCode }

/-- 60_exceptions.md R232: while a compression runs every legal command except NOP and RDSTATUS raises BUSY and does nothing
else; it is neither queued nor replayed. -/
def Obligations.BusyBlockRefusesCommands : Prop :=
  ∀ (i : Instr) (s : State), i.wf = true → i ≠ .nop → i ≠ .rdstatus → s.phase ≠ .idle →
    exec i s = .next (s.raiseError .busy)

/-- 60_exceptions.md R234: ERR and ERRCODE are sticky: no transition but reset clears or changes them once ERR is 1, and reset
does clear them. -/
def Obligations.ErrorsAreSticky : Prop :=
  ∀ s t : State, step s = .next t →
    (¬ NextReset s → s.err = true → t.err = true ∧ t.errCode = s.errCode) ∧
    (NextReset s → t.err = false ∧ t.errCode = 0)

/-- 10_state.md R35: the bits of STATUS, for every state. -/
def Obligations.StatusWordLayout : Prop :=
  ∀ s : State,
    (s.status.getLsbD 0 = true ↔ s.phase ≠ .idle) ∧
    s.status.getLsbD 1 = s.err ∧
    s.status.extractLsb' 2 2 = 0 ∧
    s.status.extractLsb' 4 4 = s.errCode ∧
    s.status.extractLsb' 8 2 = (match s.phase with | .idle => 0 | .load => 1 | .rounds => 2 | .final => 3) ∧
    s.status.extractLsb' 10 2 = 0 ∧
    s.status.extractLsb' 12 5 = s.grp ∧
    s.status.extractLsb' 17 15 = 0

/-- 70_reset_and_hazards.md R260, R261: the reset values the spec gives, after reset and after a reset transition at any time;
every cell is unwritten, and RDSTATUS right after reads 0. (What STATE, V, ABEF, CDGH and WIN hold is not stated: log 1.) -/
def Obligations.ResetValues : Prop :=
  ∀ (s : State) (rest : List PortEvent), s.port = .reset :: rest →
    ∃ t, step s = .next t ∧ t.port = rest ∧
      ∀ u ∈ [t, State.reset], u.phase = .idle ∧ u.grp = 0 ∧ u.err = false ∧ u.errCode = 0 ∧ u.dout = 0 ∧ u.busy = false ∧
        (∀ c, u.cellWritten c = false) ∧ ∃ w, exec .rdstatus u = .next w ∧ w.dout = 0

/-! ## Host access commands -/

/-- 44_host.md R201: NOP changes nothing and is never BUSY. -/
def Obligations.NopChangesNothing : Prop :=
  SpelledBy .nop (formatN 0x00) ∧ ∀ s, Completes .nop s fun t => t = s

/-- 44_host.md R202: RDSTATUS copies STATUS to DOUT, busy or not, and clears nothing. -/
def Obligations.RdstatusReadsStatus : Prop :=
  SpelledBy .rdstatus (formatN 0x01) ∧
  ∀ s, Completes .rdstatus s fun t => t.dout = s.status ∧ OnlyDout s t

/-- 44_host.md R203: WRSTATE writes `din` to `STATE[idx]` and marks it; nothing else changes. -/
def Obligations.WrstateWritesOneWord : Prop :=
  ∀ (idx : StateIdx) (din : Word),
    SpelledWithData (.wrstate idx din) (formatI 0x02 0 idx) din ∧
    (∀ s, s.phase = .idle → Completes (.wrstate idx din) s fun t =>
      t.hashWord idx = din ∧ t.cellWritten (.hash idx) = true ∧
      (∀ k, k ≠ idx → t.hashWord k = s.hashWord k ∧ t.cellWritten (.hash k) = s.cellWritten (.hash k)) ∧
      (∀ a, readByte t.blk a = readByte s.blk a) ∧
      t = { s with hash := t.hash, hashMarks := t.hashMarks }) ∧
    RefusedWhileBusy (.wrstate idx din)

/-- 44_host.md R204: RDSTATE copies `STATE[idx]` to DOUT; an unwritten word stops the checked machine. -/
def Obligations.RdstateReadsOneWord : Prop :=
  ∀ idx : StateIdx,
    SpelledBy (.rdstate idx) (formatI 0x03 0 idx) ∧
    (∀ s, s.phase = .idle → AllWritten [.hash idx] s →
      Completes (.rdstate idx) s fun t => t.dout = s.hashWord idx ∧ OnlyDout s t) ∧
    FaultsOnUnwritten (.rdstate idx) [.hash idx] ∧ RefusedWhileBusy (.rdstate idx)

/-- 44_host.md R205: WRBYTE stores `din[7:0]` at `BLK[idx]`; every other byte reads as before. -/
def Obligations.WrbyteStoresOneByte : Prop :=
  ∀ (idx : ByteIdx) (din : Word),
    SpelledWithData (.wrbyte idx din) (formatI 0x04 0 idx) din ∧
    (∀ s, s.phase = .idle → Completes (.wrbyte idx din) s fun t =>
      readByte t.blk idx.val = some (din.extractLsb' 0 8) ∧ OnlyBytes [idx] s t) ∧
    RefusedWhileBusy (.wrbyte idx din)

/-- 44_host.md R206, 20_memory.md R53: WRWORD stores `din` big-endian at `BLK[4idx..4idx+3]`, addresses as the meaning
computes them; every other byte reads as before. -/
def Obligations.WrwordStoresBigEndian : Prop :=
  ∀ (idx : WordIdx) (din : Word),
    SpelledWithData (.wrword idx din) (formatI 0x05 0 idx) din ∧
    (∀ k : Fin 4, (byteAddr idx k).val = 4 * idx.val + k.val) ∧
    (∀ s, s.phase = .idle → Completes (.wrword idx din) s fun t =>
      readByte t.blk (byteAddr idx 0).val = some (din.extractLsb' 24 8) ∧
      readByte t.blk (byteAddr idx 1).val = some (din.extractLsb' 16 8) ∧
      readByte t.blk (byteAddr idx 2).val = some (din.extractLsb' 8 8) ∧
      readByte t.blk (byteAddr idx 3).val = some (din.extractLsb' 0 8) ∧
      OnlyBytes (bytesOfWord idx) s t) ∧
    RefusedWhileBusy (.wrword idx din)

/-- 44_host.md R207, 10_state.md R24: RDWORD copies the big-endian word `M(idx)` to DOUT; an unwritten byte of the four stops
both machines. (That `exec`, and not only the checked machine, stops there is the model's choice: notes/assumptions/3.md.) -/
def Obligations.RdwordReadsBigEndian : Prop :=
  ∀ idx : WordIdx,
    SpelledBy (.rdword idx) (formatI 0x06 0 idx) ∧
    (∀ (s : State) (b0 b1 b2 b3 : Byte), s.phase = .idle →
      readByte s.blk (4 * idx.val) = some b0 → readByte s.blk (4 * idx.val + 1) = some b1 →
      readByte s.blk (4 * idx.val + 2) = some b2 → readByte s.blk (4 * idx.val + 3) = some b3 →
      Completes (.rdword idx) s fun t => t.dout = b0 ++ b1 ++ b2 ++ b3 ∧ OnlyDout s t) ∧
    (∀ s, s.phase = .idle → ¬ AllWritten ((bytesOfWord idx).map .blk) s →
      ∃ a ∈ bytesOfWord idx, s.cellWritten (.blk a) = false ∧
        exec (.rdword idx) s = .fault (.unwrittenRead (.blk a)) ∧
        checkedExec (.rdword idx) s = .fault (.unwrittenRead (.blk a))) ∧
    RefusedWhileBusy (.rdword idx)

/-- 44_host.md R208: WRV writes `din` to one lane of `V[v]`; the other lanes keep their values and marks. -/
def Obligations.WrvWritesOneLane : Prop :=
  ∀ (v : VReg) (j : LaneIdx) (din : Word),
    SpelledWithData (.wrv v j din) (formatI 0x07 v j) din ∧
    (∀ s, s.phase = .idle → Completes (.wrv v j din) s fun t =>
      t.vLane v j = din ∧ t.cellWritten (.lane v j) = true ∧
      (∀ r k, ¬ (r = v ∧ k = j) → t.vLane r k = s.vLane r k ∧ t.cellWritten (.lane r k) = s.cellWritten (.lane r k)) ∧
      (∀ a, readByte t.blk a = readByte s.blk a) ∧
      t = { s with v := t.v, vMarks := t.vMarks }) ∧
    RefusedWhileBusy (.wrv v j din)

/-- 44_host.md R209: RDV copies one lane of `V[v]` to DOUT; an unwritten lane stops the checked machine. -/
def Obligations.RdvReadsOneLane : Prop :=
  ∀ (v : VReg) (j : LaneIdx),
    SpelledBy (.rdv v j) (formatI 0x08 v j) ∧
    (∀ s, s.phase = .idle → AllWritten [.lane v j] s →
      Completes (.rdv v j) s fun t => t.dout = s.vLane v j ∧ OnlyDout s t) ∧
    FaultsOnUnwritten (.rdv v j) [.lane v j] ∧ RefusedWhileBusy (.rdv v j)

/-- 20_memory.md R53, and R54, which the spec derives from it: a word written is the word read back and the block word; a
byte written at `4i+k` replaces bits `[31-8k : 24-8k]` of block word `i` and leaves its other bytes. -/
def Obligations.ByteAndWordViewsAgree : Prop :=
  (∀ (s : State) (i : WordIdx) (x : Word), s.phase = .idle →
    ∃ t u, exec (.wrword i x) s = .next t ∧ memRead4 t.blk i = .ok x ∧ exec (.rdword i) t = .next u ∧ u.dout = x) ∧
  ∀ (s : State) (i : WordIdx) (k : Fin 4) (din w : Word), s.phase = .idle → memRead4 s.blk i = .ok w →
    ∃ t w', exec (.wrbyte (byteAddr i k) din) s = .next t ∧ memRead4 t.blk i = .ok w' ∧
      w'.extractLsb' (24 - 8 * k.val) 8 = din.extractLsb' 0 8 ∧
      ∀ k' : Fin 4, k' ≠ k → w'.extractLsb' (24 - 8 * k'.val) 8 = w.extractLsb' (24 - 8 * k'.val) 8

/-- 20_memory.md R59: repeating a host access command right away leaves the same state. -/
def Obligations.HostAccessIsIdempotent : Prop :=
  ∀ (i : Instr) (s t : State), destinations i = [] → i ≠ .compress → s.BlkLegal → exec i s = .next t → exec i t = .next t

/-! ## Lane-group arithmetic -/

/-- 40_lane_group.md R101, R102: VSRL and VSLL shift every lane by `shamt`, 0..31, zeroes coming in. -/
def Obligations.ShiftsMoveEachLane : Prop :=
  ∀ (vd va : VReg) (n : Shamt),
    DatapathRule (.vsrl vd va n) (formatS 0x20 vd va n) vd (lanesOf va)
      (fun s => ⟨s.vLane va 0 >>> n.val, s.vLane va 1 >>> n.val, s.vLane va 2 >>> n.val, s.vLane va 3 >>> n.val⟩) ∧
    DatapathRule (.vsll vd va n) (formatS 0x21 vd va n) vd (lanesOf va)
      (fun s => ⟨s.vLane va 0 <<< n.val, s.vLane va 1 <<< n.val, s.vLane va 2 <<< n.val, s.vLane va 3 <<< n.val⟩)

/-- 40_lane_group.md R103, R104: VOR and VXOR combine the registers lane by lane. -/
def Obligations.BitwiseCommandsCombineLanes : Prop :=
  ∀ vd va vb : VReg,
    DatapathRule (.vor vd va vb) (formatR 0x22 vd va vb 0 0 0) vd (lanesOf va ++ lanesOf vb)
      (fun s => ⟨s.vLane va 0 ||| s.vLane vb 0, s.vLane va 1 ||| s.vLane vb 1, s.vLane va 2 ||| s.vLane vb 2,
        s.vLane va 3 ||| s.vLane vb 3⟩) ∧
    DatapathRule (.vxor vd va vb) (formatR 0x23 vd va vb 0 0 0) vd (lanesOf va ++ lanesOf vb)
      (fun s => ⟨s.vLane va 0 ^^^ s.vLane vb 0, s.vLane va 1 ^^^ s.vLane vb 1, s.vLane va 2 ^^^ s.vLane vb 2,
        s.vLane va 3 ^^^ s.vLane vb 3⟩)

/-- 40_lane_group.md R105: VADD adds lane by lane mod 2^32; no carry is kept or passes between lanes. -/
def Obligations.VaddAddsLanesModulo : Prop :=
  ∀ vd va vb : VReg,
    DatapathRule (.vadd vd va vb) (formatR 0x24 vd va vb 0 0 0) vd (lanesOf va ++ lanesOf vb)
      (fun s =>
        let sum (j : LaneIdx) : Word := BitVec.ofNat 32 (((s.vLane va j).toNat + (s.vLane vb j).toNat) % 2 ^ 32)
        ⟨sum 0, sum 1, sum 2, sum 3⟩)

/-- 40_lane_group.md R106, 00_scope.md R9: the rotation built from the two shifts and OR is a right rotation, for 1 ≤ n ≤
31. -/
def Obligations.RotationFromPrimitives : Prop :=
  ∀ n : Nat, 1 ≤ n → n ≤ 31 →
    (∀ x : Word, rotr x n = x.rotateRight n) ∧
    ∀ (a : LaneGroup) (j : LaneIdx),
      rotateRightLanes a n = orLanes (shiftRightLanes a n) (shiftLeftLanes a (32 - n)) ∧
      lane (rotateRightLanes a n) j = (lane a j).rotateRight n

/-- 40_lane_group.md R108, 41_schedule.md R128, 42_round.md R150: on the 128-bit buses lane `j` sits in bits `[32j+31 : 32j]`;
lane `j` of the lane-group unit's output is the selected operation on lane `j` of its inputs and on nothing else; the other
two units compute `schedule` and `roundPair`. -/
def Obligations.UnitsComputeTheFunctions : Prop :=
  (∀ (g : LaneGroup) (j : LaneIdx), (packGroup g).extractLsb' (32 * j.val) 32 = lane g j) ∧
  (∀ (sel : LaneSelect) (a b : BitVec 128) (n : BitVec 5) (j : LaneIdx),
    (laneUnit sel a b n).extractLsb' (32 * j.val) 32 =
      (let x : Word := a.extractLsb' (32 * j.val) 32
       let y : Word := b.extractLsb' (32 * j.val) 32
       match sel with
       | .srl => x >>> n.toNat
       | .sll => x <<< n.toNat
       | .or => x ||| y
       | .xor => x ^^^ y
       | .add => x + y)) ∧
  (∀ w0 w1 w2 w3 : LaneGroup, expanderUnit (packGroup w0) (packGroup w1) (packGroup w2) (packGroup w3) =
    packGroup (schedule w0 w1 w2 w3)) ∧
  ∀ cdgh abef wk : LaneGroup, roundPairUnit (packGroup cdgh) (packGroup abef) (packGroup wk) =
    packGroup (roundPair cdgh abef wk)

/-! ## Message schedule -/

/-- 41_schedule.md R120, R121, R122: σ0 and σ1 as rotations and a shift; σ0×4, built from the primitives, is σ0 in every
lane. -/
def Obligations.SmallSigmaFunctions : Prop :=
  (∀ x : Word, sigma0 x = x.rotateRight 7 ^^^ x.rotateRight 18 ^^^ (x >>> 3)) ∧
  (∀ x : Word, sigma1 x = x.rotateRight 17 ^^^ x.rotateRight 19 ^^^ (x >>> 10)) ∧
  (∀ g : LaneGroup, sigma0Lanes g =
    xorLanes (xorLanes (orLanes (shiftRightLanes g 7) (shiftLeftLanes g 25))
      (orLanes (shiftRightLanes g 18) (shiftLeftLanes g 14))) (shiftRightLanes g 3)) ∧
  ∀ (g : LaneGroup) (j : LaneIdx), lane (sigma0Lanes g) j = sigma0 (lane g j)

/-- 41_schedule.md R123: VALIGN gives `⟨next[3], prev[0], prev[1], prev[2]⟩` and reads those lanes alone. -/
def Obligations.ValignRealignsGroups : Prop :=
  ∀ vd prev next : VReg,
    DatapathRule (.valign vd prev next) (formatR 0x30 vd prev next 0 0 0) vd
      [.lane prev 0, .lane prev 1, .lane prev 2, .lane next 3]
      (fun s => ⟨s.vLane next 3, s.vLane prev 0, s.vLane prev 1, s.vLane prev 2⟩)

/-- 41_schedule.md R124: lane `j` of VMSG1 is `p[j] + σ0(r[j])` with `r = ⟨n[3], p[0], p[1], p[2]⟩`. -/
def Obligations.Vmsg1AddsSigma0 : Prop :=
  ∀ vd prev next : VReg,
    DatapathRule (.vmsg1 vd prev next) (formatR 0x31 vd prev next 0 0 0) vd (lanesOf prev ++ [.lane next 3])
      (fun s =>
        let p := s.vLane prev
        ⟨p 0 + sigma0 (s.vLane next 3), p 1 + sigma0 (p 0), p 2 + sigma0 (p 1), p 3 + sigma0 (p 2)⟩)

/-- 41_schedule.md R125: VMSG2 computes W[i..i+3] with its internal chain, and reads lanes 0 and 1 of `later` alone. -/
def Obligations.Vmsg2ChainsSigma1 : Prop :=
  ∀ vd mixed later : VReg,
    DatapathRule (.vmsg2 vd mixed later) (formatR 0x32 vd mixed later 0 0 0) vd
      (lanesOf mixed ++ [.lane later 0, .lane later 1])
      (fun s =>
        let x := s.vLane mixed
        let w16 := x 3 + sigma1 (s.vLane later 1)
        let w17 := x 2 + sigma1 (s.vLane later 0)
        let w18 := x 1 + sigma1 w16
        let w19 := x 0 + sigma1 w17
        ⟨w19, w18, w17, w16⟩)

/-- 41_schedule.md R126: VSCHED, word by word: each of W[i..i+3] is `W[t-16] + σ0(W[t-15]) + W[t-7] + σ1(W[t-2])` on the
lanes of its four groups, oldest first. -/
def Obligations.VschedComputesNextGroup : Prop :=
  ∀ vd w0 w1 w2 w3 : VReg,
    DatapathRule (.vsched vd w0 w1 w2 w3) (formatR 0x33 vd w0 w1 w2 w3 0) vd
      (lanesOf w0 ++ [.lane w1 3] ++ [.lane w2 0, .lane w2 1, .lane w2 2] ++ [.lane w3 0, .lane w3 1, .lane w3 3])
      (fun s =>
        let a := s.vLane w0
        let b := s.vLane w1
        let c := s.vLane w2
        let e := s.vLane w3
        let n0 := a 3 + sigma0 (a 2) + c 2 + sigma1 (e 1)
        let n1 := a 2 + sigma0 (a 1) + c 1 + sigma1 (e 0)
        let n2 := a 1 + sigma0 (a 0) + c 0 + sigma1 n0
        let n3 := a 0 + sigma0 (b 3) + e 3 + sigma1 n1
        ⟨n3, n2, n1, n0⟩)

/-- 41_schedule.md R127, which the spec derives from R123 to R126: for every block the W[t] follow the FIPS recurrence from
the block's sixteen words, and four schedule groups in a row give the next one. -/
def Obligations.ScheduleLaw : Prop :=
  ∀ b : Block,
    (∀ i : WordIdx, scheduleWord b i.val = blockWord b i) ∧
    (∀ t, 16 ≤ t → scheduleWord b t =
      sigma1 (scheduleWord b (t - 2)) + scheduleWord b (t - 7) + sigma0 (scheduleWord b (t - 15)) + scheduleWord b (t - 16)) ∧
    ∀ q, q ≤ 11 → schedule (scheduleGroup b q) (scheduleGroup b (q + 1)) (scheduleGroup b (q + 2)) (scheduleGroup b (q + 3)) =
      scheduleGroup b (q + 4)

/-! ## Round pair -/

/-- 42_round.md R140 to R144: Σ0 and Σ1 as rotations; each bit of Ch chooses, each bit of Maj is the majority; the round. -/
def Obligations.RoundFunctions : Prop :=
  (∀ x : Word, bigSigma0 x = x.rotateRight 2 ^^^ x.rotateRight 13 ^^^ x.rotateRight 22) ∧
  (∀ x : Word, bigSigma1 x = x.rotateRight 6 ^^^ x.rotateRight 11 ^^^ x.rotateRight 25) ∧
  (∀ (x y z : Word), ch x y z = z ^^^ (x &&& (y ^^^ z)) ∧
    ∀ i, (ch x y z).getLsbD i = if x.getLsbD i then y.getLsbD i else z.getLsbD i) ∧
  (∀ (x y z : Word), maj x y z = (x &&& y) ^^^ (x &&& z) ^^^ (y &&& z) ∧
    ∀ i, (maj x y z).getLsbD i = decide (2 ≤ (x.getLsbD i).toNat + (y.getLsbD i).toNat + (z.getLsbD i).toNat)) ∧
  ∀ (w : WorkVars) (wk : Word),
    (let t1 := bigSigma1 w.e + ch w.e w.f w.g + wk + w.h
     let t2 := bigSigma0 w.a + maj w.a w.b w.c
     round w wk = { a := t1 + t2, b := w.a, c := w.b, d := w.c, e := t1 + w.d, f := w.e, g := w.f, h := w.g })

/-- 42_round.md R145: VSWAP exchanges the halves, and undoes itself. -/
def Obligations.VswapExchangesHalves : Prop :=
  (∀ vd va : VReg,
    DatapathRule (.vswap vd va) (formatR 0x40 vd va 0 0 0 0) vd (lanesOf va)
      (fun s => ⟨s.vLane va 2, s.vLane va 3, s.vLane va 0, s.vLane va 1⟩)) ∧
  ∀ g : LaneGroup, swapHalves (swapHalves g) = g

/-- 42_round.md R146, KG(g) written out as 10_state.md R39 gives it: VADDK adds `K[4g+3-j]` to lane `j`. -/
def Obligations.VaddkAddsRoundConstants : Prop :=
  ∀ (vd va : VReg) (g : GroupIdx),
    DatapathRule (.vaddk vd va g) (formatR 0x41 vd va 0 0 0 g) vd (lanesOf va)
      (fun s => ⟨s.vLane va 0 + K ⟨4 * g.val + 3, by omega⟩, s.vLane va 1 + K ⟨4 * g.val + 2, by omega⟩,
        s.vLane va 2 + K ⟨4 * g.val + 1, by omega⟩, s.vLane va 3 + K ⟨4 * g.val, by omega⟩⟩)

/-- 42_round.md R147, R144: VRND2 runs the round of `wk[3]` and then the round of `wk[2]` on the variables of its two
groups, and gives `⟨A2, B2, E2, F2⟩`; lanes 0 and 1 of `wk` are not read. The rounds are written out. -/
def Obligations.Vrnd2RunsTwoRounds : Prop :=
  ∀ vd cdgh abef wk : VReg,
    DatapathRule (.vrnd2 vd cdgh abef wk) (formatR 0x42 vd cdgh abef wk 0 0) vd
      (lanesOf cdgh ++ lanesOf abef ++ [.lane wk 2, .lane wk 3])
      (fun s =>
        let a := s.vLane abef 0
        let b := s.vLane abef 1
        let e := s.vLane abef 2
        let f := s.vLane abef 3
        let c := s.vLane cdgh 0
        let d := s.vLane cdgh 1
        let g := s.vLane cdgh 2
        let h := s.vLane cdgh 3
        let t1 := bigSigma1 e + ch e f g + s.vLane wk 3 + h
        let t2 := bigSigma0 a + maj a b c
        let a1 := t1 + t2
        let e1 := t1 + d
        let u1 := bigSigma1 e1 + ch e1 e f + s.vLane wk 2 + g
        let u2 := bigSigma0 a1 + maj a1 a b
        ⟨u1 + u2, a1, u1 + c, e1⟩)

/-- 42_round.md R148: VRND4 with `vd ≠ va` runs four rounds by two round pairs around a half swap and writes both groups,
which then hold the working variables after round 4g+3; with `vd = va` its word is illegal and the instruction raises
ILLEGAL, busy or not. (What `exec` does with that instruction, which no word decodes to, is the model's inference:
notes/assumptions/11.md.) -/
def Obligations.Vrnd4RunsFourRounds : Prop :=
  ∀ (abef cdgh w : VReg) (g : GroupIdx),
    (abef ≠ cdgh →
      SpelledBy (.vrnd4 abef cdgh w g) (formatR 0x43 abef cdgh w 0 0 g) ∧
      (∀ s, s.phase = .idle → AllWritten (lanesOf abef ++ lanesOf cdgh ++ lanesOf w) s →
        Completes (.vrnd4 abef cdgh w g) s fun t =>
          (let t1 := addLanes (s.vGroup w) (KG g)
           let cdgh' := roundPair (s.vGroup cdgh) (s.vGroup abef) t1
           t.vGroup cdgh = cdgh' ∧ t.vGroup abef = roundPair (s.vGroup abef) cdgh' (swapHalves t1)) ∧
          (let v0 := workVarsOf (s.vGroup abef) (s.vGroup cdgh)
           let v1 := round v0 (s.vLane w 3 + K ⟨4 * g.val, by omega⟩)
           let v2 := round v1 (s.vLane w 2 + K ⟨4 * g.val + 1, by omega⟩)
           let v3 := round v2 (s.vLane w 1 + K ⟨4 * g.val + 2, by omega⟩)
           let v4 := round v3 (s.vLane w 0 + K ⟨4 * g.val + 3, by omega⟩)
           t.vGroup abef = ⟨v4.a, v4.b, v4.e, v4.f⟩ ∧ t.vGroup cdgh = ⟨v4.c, v4.d, v4.g, v4.h⟩) ∧
          OnlyRegisters [abef, cdgh] s t) ∧
      FaultsOnUnwritten (.vrnd4 abef cdgh w g) (lanesOf abef ++ lanesOf cdgh ++ lanesOf w) ∧
      RefusedWhileBusy (.vrnd4 abef cdgh w g)) ∧
    (abef = cdgh → (∀ din, ∃ r, decode (formatR 0x43 abef cdgh w 0 0 g) din = .error r) ∧
      ∀ s, exec (.vrnd4 abef cdgh w g) s = .next (s.raiseError .illegal))

/-- 42_round.md R149, which the spec derives from R144, R147 and R148: two rounds move A, B, E, F into the places of C, D,
G, H; so the two role-alternating calls of `rounds4` are the four rounds of the group, with both names in their own roles
again. -/
def Obligations.RolesAlternateOverFourRounds : Prop :=
  (∀ (v : WorkVars) (k0 k1 : Word),
    let u := round (round v k0) k1
    u.c = v.a ∧ u.d = v.b ∧ u.g = v.e ∧ u.h = v.f) ∧
  ∀ (abef cdgh w : LaneGroup) (g : GroupIdx),
    let v := round (round (round (round (workVarsOf abef cdgh) (w.l3 + K ⟨4 * g.val, by omega⟩))
      (w.l2 + K ⟨4 * g.val + 1, by omega⟩)) (w.l1 + K ⟨4 * g.val + 2, by omega⟩)) (w.l0 + K ⟨4 * g.val + 3, by omega⟩)
    rounds4 abef cdgh w g = (⟨v.a, v.b, v.e, v.f⟩, ⟨v.c, v.d, v.g, v.h⟩)

/-! ## Compressor -/

/-- 43_compressor.md R171: COMPRESS with PHASE IDLE and everything written sets PHASE to LOAD, GRP to 0 and BUSY to 1, and
changes nothing else; on an unwritten cell the checked machine stops; while busy it is refused. -/
def Obligations.CompressStartsTheSequencer : Prop :=
  SpelledBy .compress (formatN 0x10) ∧
  (∀ s, s.phase = .idle → (∀ i, s.cellWritten (.hash i) = true) → (∀ a, s.cellWritten (.blk a) = true) →
    Completes .compress s fun t => t.busy = true ∧ t = { s with phase := .load, grp := 0 }) ∧
  (∀ s, s.phase = .idle → ((∃ i, s.cellWritten (.hash i) = false) ∨ ∃ a, s.cellWritten (.blk a) = false) →
    ∃ c, ((∃ i, c = .hash i) ∨ ∃ a, c = .blk a) ∧ s.cellWritten c = false ∧
      checkedExec .compress s = .fault (.unwrittenRead c)) ∧
  RefusedWhileBusy .compress

/-- 43_compressor.md R173: the LOAD step. -/
def Obligations.LoadStepLoadsBlockAndState : Prop :=
  ∀ (s : State) (b : Block), s.phase = .load → s.HoldsBlock b →
    ∃ t, sequencerTurn s = .next t ∧
      (∀ q : Fin 4, t.winSlot q.val =
        ⟨blockWord b ⟨4 * q.val + 3, by omega⟩, blockWord b ⟨4 * q.val + 2, by omega⟩, blockWord b ⟨4 * q.val + 1, by omega⟩,
          blockWord b ⟨4 * q.val, by omega⟩⟩) ∧
      t.winSlot 4 = s.winSlot 4 ∧
      t.abef = ⟨s.hashWord 0, s.hashWord 1, s.hashWord 4, s.hashWord 5⟩ ∧
      t.cdgh = ⟨s.hashWord 2, s.hashWord 3, s.hashWord 6, s.hashWord 7⟩ ∧
      t.phase = .rounds ∧ t.grp = 0 ∧
      t = { s with win := t.win, abef := t.abef, cdgh := t.cdgh, phase := t.phase, grp := t.grp }

/-- 43_compressor.md R174, R175: the ROUNDS step of group `g`. Its window slots are written as the table of R175 lists them,
which the spec derives from R174's `mod 5`; what those slots hold is not said here. -/
def Obligations.RoundsStepRunsOneGroup : Prop :=
  ∀ (s : State) (g : GroupIdx), s.phase = .rounds → s.grp.toNat = g.val →
    ∃ t, sequencerTurn s = .next t ∧
      (let row := windowRow g.val
       let x := if g.val < 4 then s.winSlot g.val
         else schedule (s.winSlot row.1.val) (s.winSlot row.2.1.val) (s.winSlot row.2.2.1.val) (s.winSlot row.2.2.2.1.val)
       (t.abef, t.cdgh) = rounds4 s.abef s.cdgh x g ∧
       (g.val < 4 → t.win = s.win) ∧
       (4 ≤ g.val → t.winSlot row.2.2.2.2.val = x ∧
         ∀ q : Fin 5, q ≠ row.2.2.2.2 → t.winSlot q.val = s.winSlot q.val)) ∧
      (g.val < 15 → t.phase = .rounds ∧ t.grp.toNat = g.val + 1) ∧
      (g.val = 15 → t.phase = .final ∧ t.grp.toNat = 16) ∧
      t = { s with win := t.win, abef := t.abef, cdgh := t.cdgh, phase := t.phase, grp := t.grp }

/-- 43_compressor.md R176: the FINAL step adds the working variables into all eight STATE words at once. -/
def Obligations.FinalStepFeedsForward : Prop :=
  ∀ s : State, s.phase = .final →
    ∃ t, sequencerTurn s = .next t ∧
      t.hashWord 0 = s.hashWord 0 + lane s.abef 0 ∧ t.hashWord 1 = s.hashWord 1 + lane s.abef 1 ∧
      t.hashWord 2 = s.hashWord 2 + lane s.cdgh 0 ∧ t.hashWord 3 = s.hashWord 3 + lane s.cdgh 1 ∧
      t.hashWord 4 = s.hashWord 4 + lane s.abef 2 ∧ t.hashWord 5 = s.hashWord 5 + lane s.abef 3 ∧
      t.hashWord 6 = s.hashWord 6 + lane s.cdgh 2 ∧ t.hashWord 7 = s.hashWord 7 + lane s.cdgh 3 ∧
      (∀ i, t.cellWritten (.hash i) = true) ∧ t.phase = .idle ∧ t.grp = 0 ∧
      t = { s with hash := t.hash, hashMarks := t.hashMarks, phase := t.phase, grp := t.grp }

/-- 43_compressor.md R170: COMPRESS leads from IDLE to LOAD; from LOAD, with nothing else coming, exactly 18 steps lead to
IDLE, through LOAD, the sixteen ROUNDS groups in order, and FINAL; from any legal state the sequencer is done within 18.
(With nothing pending every step is a sequencer step, R172 and notes/assumptions/5.md; that COMPRESS runs whether or not
STATE words are written, where R171 has a model fault, is the model's choice: 2.md; with commands among the steps see
`InterleavingCannotChangeTheResult`.) -/
def Obligations.CompressionTakesEighteenSteps : Prop :=
  (∀ (s : State) (b : Block), s.phase = .idle → s.HoldsBlock b → ∃ t, exec .compress s = .next t ∧ t.phase = .load) ∧
  (∀ (s : State) (b : Block), s.phase = .load → s.HoldsBlock b → s.port = [] →
    (∀ g, g < 16 → ∃ t, runSteps (g + 1) s = .next t ∧ t.phase = .rounds ∧ t.grp.toNat = g) ∧
    (∃ t, runSteps 17 s = .next t ∧ t.phase = .final ∧ t.grp.toNat = 16) ∧
    ∃ t, runSteps 18 s = .next t ∧ t.phase = .idle ∧ t.grp = 0) ∧
  ∀ s : State, s.Legal → s.port = [] → ∃ k t, k ≤ 18 ∧ runSteps k s = .next t ∧ t.phase = .idle

/-- 10_state.md R32, which the spec derives from R31, R173 and R174: when the ROUNDS step of group `g` begins, `WIN[q mod 5]
= SG(q)` for `max(0, g-5) ≤ q ≤ max(3, g-1)`. (With nothing pending every step is a sequencer step: notes/assumptions/5.md;
over every step, `CompressionStaysOnCourse`.) -/
def Obligations.WindowHoldsScheduleGroups : Prop :=
  ∀ (s : State) (b : Block) (g : Nat), s.phase = .load → s.HoldsBlock b → s.port = [] → g < 16 →
    ∃ t, runSteps (g + 1) s = .next t ∧ t.phase = .rounds ∧ t.grp.toNat = g ∧
      ∀ q, g - 5 ≤ q → q ≤ max 3 (g - 1) → t.winSlot q = scheduleGroup b q

/-- 43_compressor.md R177, which the spec derives from R173 to R176: COMPRESS and its 18 sequencer steps leave
`compressBlock(S, B)`, the textbook 64-round loop over the FIPS schedule with the feed-forward, in STATE; BLK, V, DOUT, ERR
and ERRCODE are as before. (Where STATE words are unwritten the values are the model's: notes/assumptions/2.md.) -/
def Obligations.CompressionComputesCompressBlock : Prop :=
  ∀ (s : State) (b : Block) (din : Word) (rest : List PortEvent), s.phase = .idle → s.HoldsBlock b →
    s.port = .command 0x10000000 din :: (List.replicate 18 .sequencerTurn ++ rest) →
    ∃ t, runSteps 19 s = .next t ∧ t.hash = compressBlock s.hash b ∧
      (∀ a, readByte t.blk a = readByte s.blk a) ∧ t.phase = .idle ∧ t.grp = 0 ∧ t.port = rest ∧
      t = { t with blk := s.blk, v := s.v, vMarks := s.vMarks, err := s.err, errCode := s.errCode, dout := s.dout }

/-- 43_compressor.md R180, with R177 and 20_memory.md R62, which the spec derives from other rules: any commands at all, legal
or not, in any places among the 18 sequencer steps, leave the compression's result, BLK and V what they are without them. R180
gives that nothing among the steps matters; that the result is the closed form `compressBlock(S, B)` is R177. (On unwritten
STATE words the values are the model's: notes/assumptions/2.md.) -/
def Obligations.InterleavingCannotChangeTheResult : Prop :=
  ∀ (s : State) (b : Block) (es rest : List PortEvent), s.phase = .load → s.HoldsBlock b →
    (∀ e ∈ es, e ≠ .reset) → es.count .sequencerTurn = 17 → s.port = es ++ .sequencerTurn :: rest →
    ∃ t, runSteps (es.length + 1) s = .next t ∧ t.hash = compressBlock s.hash b ∧ t.phase = .idle ∧ t.grp = 0 ∧
      t.blk = s.blk ∧ t.v = s.v ∧ t.vMarks = s.vMarks ∧ t.port = rest

/-- 43_compressor.md R178, which the spec derives from R177, and HASHBLOCK of 30_encoding.md R82: HASHBLOCK of each block in
order, from any idle state, leaves `compress(S, blocks)` in STATE; and compressing a list in two parts is compressing it
whole. (From a state with unwritten STATE words the values are the model's: notes/assumptions/2.md; how WAITIDLE polls:
10.md.) -/
def Obligations.HashBlocksChainThroughState : Prop :=
  (∀ (bs : List Block) (s : State), s.phase = .idle →
    ∃ t, hashBlocks bs s = .next t ∧ t.hash = compressBlocks s.hash bs ∧ t.phase = .idle) ∧
  ∀ (h : Vector Word 8) (bs cs : List Block), compressBlocks h (bs ++ cs) = compressBlocks (compressBlocks h bs) cs

/-- 30_encoding.md R82, which the spec derives from R101 to R103: VMOV, VZERO, VROTR and WRLANES, under their conditions,
compute what the table says, and WAITIDLE returns with PHASE IDLE. (On unwritten lanes the values are the model's:
notes/assumptions/2.md; how WAITIDLE polls: 10.md.) -/
def Obligations.PseudoInstructionsCompute : Prop :=
  (∀ (s : State) (d a : VReg), s.phase = .idle →
    (∃ t, runCommands (expandPseudo (.vmov d a)) s = .next t ∧ t.vGroup d = s.vGroup a) ∧
    (∃ t, runCommands (expandPseudo (.vzero d a)) s = .next t ∧ t.vGroup d = ⟨0, 0, 0, 0⟩) ∧
    (∀ (n : Shamt) (vt : VReg), 1 ≤ n.val → vt ≠ a → vt ≠ d →
      ∃ t, runCommands (expandPseudo (.vrotr d a n vt)) s = .next t ∧
        (∀ j, t.vLane d j = (s.vLane a j).rotateRight n.val) ∧ ∀ r, r ≠ d → r ≠ vt → t.vGroup r = s.vGroup r) ∧
    ∀ x0 x1 x2 x3 : Word, ∃ t, runCommands (expandPseudo (.wrlanes d x0 x1 x2 x3)) s = .next t ∧
      t.vGroup d = ⟨x0, x1, x2, x3⟩) ∧
  ∀ s : State, s.Legal → ∃ t, waitIdle 19 s = .next t ∧ t.phase = .idle ∧ t.dout.getLsbD 0 = false

/-! ## The whole machine -/

/-- 10_state.md R40, which the spec derives from R20 to R39: what may write each piece of state, over every transition but
reset. -/
def Obligations.AccessMatrixOfWrites : Prop :=
  ∀ s t : State, step s = .next t → ¬ NextReset s →
    (∀ k, t.hashWord k ≠ s.hashWord k →
      (s.phase = .idle ∧ ∃ din, NextCommand s (.wrstate k din)) ∨ (NextTurn s ∧ s.phase = .final)) ∧
    (∀ a, readByte t.blk a ≠ readByte s.blk a → s.phase = .idle ∧
      ((∃ idx din, NextCommand s (.wrbyte idx din) ∧ a = idx.val) ∨
        ∃ idx din, NextCommand s (.wrword idx din) ∧ ∃ k, a = (byteAddr idx k).val)) ∧
    (∀ r j, t.vLane r j ≠ s.vLane r j → s.phase = .idle ∧
      ((∃ din, NextCommand s (.wrv r j din)) ∨ ∃ i, NextCommand s i ∧ r ∈ destinations i)) ∧
    (t.abef ≠ s.abef ∨ t.cdgh ≠ s.cdgh → NextTurn s ∧ (s.phase = .load ∨ s.phase = .rounds)) ∧
    (∀ q : Fin 5, t.winSlot q.val ≠ s.winSlot q.val → NextTurn s ∧
      ((s.phase = .load ∧ q.val < 4) ∨ (s.phase = .rounds ∧ 4 ≤ s.grp.toNat ∧ q.val = s.grp.toNat % 5))) ∧
    (t.phase ≠ s.phase ∨ t.grp ≠ s.grp →
      (NextTurn s ∧ s.phase ≠ .idle) ∨ (s.phase = .idle ∧ NextCommand s .compress)) ∧
    (t.err ≠ s.err ∨ t.errCode ≠ s.errCode → NextRaises s) ∧
    (t.dout ≠ s.dout → NextCommand s .rdstatus ∨ (s.phase = .idle ∧
      ((∃ idx, NextCommand s (.rdstate idx)) ∨ (∃ idx, NextCommand s (.rdword idx)) ∨ ∃ v j, NextCommand s (.rdv v j))))

/-- The states the block can be in (10_state.md R33, R35, 60_exceptions.md R231, 43_compressor.md R171, and the canonical
form of BLK): every transition keeps them. -/
def Obligations.LegalStatesAreKept : Prop := ∀ s t : State, s.Legal → step s = .next t → t.Legal

/-- The state after reset is legal. -/
def Obligations.ResetStateIsLegal : Prop := State.reset.Legal

/-- 43_compressor.md R179 and notes/assumptions/3.md: from a legal state nothing is ever refused, no sequencer step stops,
and a command stops only when RDWORD or COMPRESS meets an unwritten BLK byte while idle. (Where R264 lists a model fault,
what `step` does is the model's choice: that it stops on a BLK byte is log 3, that it stops on no unwritten STATE word or V
lane is notes/assumptions/2.md.) -/
def Obligations.LegalStatesStopOnlyOnUnwrittenBytes : Prop :=
  ∀ s : State, s.Legal →
    (∀ r, step s ≠ .refused r) ∧
    ∀ f, step s = .fault f → s.phase = .idle ∧ ∃ (a : ByteIdx) (i : Instr), NextCommand s i ∧
      (i = .compress ∨ ∃ idx, i = .rdword idx) ∧ s.cellWritten (.blk a) = false ∧ f = .unwrittenRead (.blk a)

/-! ## Unwritten cells -/

/-- 70_reset_and_hazards.md R264: with PHASE IDLE, the checked machine stops on a legal command exactly when some cell the
command reads is unwritten, and names such a cell; else it answers what `exec` answers, a next state. -/
def Obligations.CheckedMachineStopsExactlyOnUnwritten : Prop :=
  ∀ (i : Instr) (s : State), i.wf = true → s.phase = .idle →
    ((∃ c ∈ cellsRead i, s.cellWritten c = false) →
      ∃ c ∈ cellsRead i, s.cellWritten c = false ∧ checkedExec i s = .fault (.unwrittenRead c)) ∧
    ((∀ c ∈ cellsRead i, s.cellWritten c = true) → ∃ t, checkedExec i s = .next t ∧ exec i s = .next t)

/-- 70_reset_and_hazards.md R264 ("errs toward unprovable, never toward proving"): two states that differ only in the values
of unwritten STATE words and V lanes have the same checked transition: the same stop, or next states that again differ only
so. -/
def Obligations.UnwrittenValuesNeverMatter : Prop :=
  ∀ s u : State, SameWritten s u → s.BusyHashWritten →
    (∀ t, checkedStep s = .next t → ∃ w, checkedStep u = .next w ∧ SameWritten t w) ∧
    (∀ f, checkedStep s = .fault f → checkedStep u = .fault f)

/-- 43_compressor.md R171: in the checked machine, whenever a compression runs every STATE word has been written. -/
def Obligations.CheckedMachineRunsOnWrittenState : Prop :=
  State.reset.BusyHashWritten ∧ ∀ s t : State, s.BusyHashWritten → checkedStep s = .next t → t.BusyHashWritten

/-- The model's choice, not the spec's (notes/assumptions/2.md): in `exec` the written marks of STATE and V change nothing:
every command but RDWORD and COMPRESS completes with PHASE IDLE whatever is unwritten, and marks differ in the marks alone.
-/
def Obligations.MarksDoNotSteerExec : Prop :=
  (∀ (i : Instr) (s : State), s.phase = .idle → i ≠ .compress → (∀ idx, i ≠ .rdword idx) → ∃ t, exec i s = .next t) ∧
  ∀ (i : Instr) (s t : State) (hm : Vector Bool 8) (vm : Vector (Lanes Bool) 16), exec i s = .next t →
    ∃ t', exec i { s with hashMarks := hm, vMarks := vm } = .next t' ∧
      t = { t' with hashMarks := t.hashMarks, vMarks := t.vMarks }

/-! ## The running compression -/

/-- 10_state.md R32 and 43_compressor.md R177, R180, which the spec derives from R173 to R176: every step, whatever the host
does, keeps a running compression on the textbook's course. Over a step that is no reset the block stays the same one, and
STATE changes only in the FINAL step, to `compressBlock(S, B)`. (A sequencer turn may be one with nothing pending:
notes/assumptions/5.md; on unwritten STATE words the values are the model's: 2.md.) -/
def Obligations.CompressionStaysOnCourse : Prop :=
  (∀ s t : State, s.OnCourse → step s = .next t → t.OnCourse) ∧
  ∀ (s t : State) (b : Block), s.phase ≠ .idle → s.FollowsTextbook b → ¬ NextReset s → step s = .next t →
    t.HoldsBlock b ∧
    (t.phase ≠ .idle → t.hash = s.hash ∧ t.FollowsTextbook b) ∧
    (t.phase = .idle → NextTurn s ∧ s.phase = .final ∧ t.hash = compressBlock s.hash b)

/-- The state after reset, in which no compression runs, is on course. -/
def Obligations.ResetStateIsOnCourse : Prop := State.reset.OnCourse
end

