-- ==== Sys2Proof/Laws/Decode.lean ====
section
/-! SUPPORT. How the opcode map finds rows (30_encoding.md R77, R78) and how an operand placed in a command word is read back
from it (R73 to R76). -/

namespace Sys2Proof

/-! ### Rows -/

/-- A word that matches a row has the row's opcode: every mask covers `cmd[31:24]` (30_encoding.md R78). -/
theorem opcode_of_matchesWord {r : OpcodeRow} (hr : r ∈ opcodeTable) {cmd : Word} (h : r.matchesWord cmd = true) :
    cmd.extractLsb' 24 8 = r.pattern.extractLsb' 24 8 := by
  have hm : ∀ r ∈ opcodeTable, r.mask.extractLsb' 24 8 = 0xFF#8 := by decide
  have h' : cmd &&& r.mask = r.pattern := by simpa [OpcodeRow.matchesWord] using h
  rw [← h', BitVec.extractLsb'_and, hm r hr]
  exact (BitVec.and_allOnes (x := cmd.extractLsb' 24 8)).symm

/-- Rows with the same opcode are the same row (30_encoding.md R78). -/
theorem row_eq_of_opcode {r r' : OpcodeRow} (hr : r ∈ opcodeTable) (hr' : r' ∈ opcodeTable)
    (h : r.pattern.extractLsb' 24 8 = r'.pattern.extractLsb' 24 8) : r = r' := by
  have key : ∀ r ∈ opcodeTable, ∀ r' ∈ opcodeTable, r.pattern.extractLsb' 24 8 = r'.pattern.extractLsb' 24 8 → r = r' := by
    decide
  exact key r hr r' hr' h

/-- A row found is a row of the map that the word matches. -/
theorem findRow_sound {cmd : Word} {r : OpcodeRow} (h : findRow cmd = some r) :
    r ∈ opcodeTable ∧ r.matchesWord cmd = true := by
  unfold findRow at h
  exact ⟨List.mem_of_find?_eq_some h, by simpa using List.find?_some h⟩

/-- The row found is the row the word matches. -/
theorem findRow_eq_some {cmd : Word} {r : OpcodeRow} : findRow cmd = some r ↔ r ∈ opcodeTable ∧ r.matchesWord cmd = true := by
  constructor
  · exact findRow_sound
  · rintro ⟨hr, hm⟩
    cases h : findRow cmd with
    | none =>
      unfold findRow at h
      exact absurd hm (by simpa using List.find?_eq_none.1 h r hr)
    | some r' =>
      obtain ⟨hr', hm'⟩ := findRow_sound h
      rw [row_eq_of_opcode hr' hr ((opcode_of_matchesWord hr' hm').symm.trans (opcode_of_matchesWord hr hm))]

theorem findRow_eq_none {cmd : Word} : findRow cmd = none ↔ ∀ r ∈ opcodeTable, r.matchesWord cmd = false := by
  simp [findRow, List.find?_eq_none]

/-- The row of each name in the opcode map. -/
def rowOf (op : Op) : OpcodeRow := (opcodeTable.find? fun r => r.op == op).getD ⟨op, 0, 0⟩

theorem rowOf_mem (op : Op) : rowOf op ∈ opcodeTable := by cases op <;> decide

@[simp] theorem rowOf_op (op : Op) : (rowOf op).op = op := by cases op <;> rfl

/-- The opcode byte of a row is the byte the encoder puts in `cmd[31:24]` (30_encoding.md R77). -/
theorem rowOf_opcode (op : Op) : (rowOf op).pattern.extractLsb' 24 8 = BitVec.ofNat 8 op.opcode := by cases op <;> rfl

/-! ### Fields -/

/-- Bit `i` of a placed number. -/
theorem getLsbD_place (x lo i : Nat) :
    (place x lo).getLsbD i = (decide (i < 32) && (decide (lo ≤ i) && x.testBit (i - lo))) := by
  simp only [place, BitVec.getLsbD_shiftLeft, BitVec.getLsbD_ofNat]
  by_cases h : i < 32
  · by_cases h' : lo ≤ i
    · simp [h, h', Nat.not_lt.2 h', show i - lo < 32 by omega]
    · simp [h, h', Nat.lt_of_not_le h']
  · simp [h]

/-- A number of `w` bits has no bit at `w` or above. -/
theorem testBit_eq_false_of_lt {x w i : Nat} (hx : x < 2 ^ w) (hi : w ≤ i) : x.testBit i = false :=
  Nat.testBit_lt_two_pow (Nat.lt_of_lt_of_le hx (Nat.pow_le_pow_right (by omega) hi))

/-- An operand of `w` bits is read back from where it was placed. -/
theorem extract_place_self {x w lo : Nat} (h : lo + w ≤ 32) : (place x lo).extractLsb' lo w = BitVec.ofNat w x := by
  apply BitVec.eq_of_getLsbD_eq
  intro i hi
  rw [BitVec.getLsbD_extractLsb', getLsbD_place, BitVec.getLsbD_ofNat]
  simp [hi, show lo + i < 32 by omega]

/-- An operand of `w` bits is not seen in a field that lies apart from it. -/
theorem extract_place_apart {x w lo : Nat} (hx : x < 2 ^ w) {lo' w' : Nat} (h : lo + w ≤ lo' ∨ lo' + w' ≤ lo) :
    (place x lo).extractLsb' lo' w' = 0#w' := by
  apply BitVec.eq_of_getLsbD_eq
  intro i hi
  simp only [BitVec.getLsbD_extractLsb', getLsbD_place, BitVec.getLsbD_zero]
  rcases h with h | h
  · rw [testBit_eq_false_of_lt hx (by omega)]; simp
  · simp; omega

/-- An operand of `w` bits meets no 1 of a mask that is 0 on its field. -/
theorem place_and_mask {x w lo : Nat} (hx : x < 2 ^ w) {m : Word} (hm : m.extractLsb' lo w = 0#w) : place x lo &&& m = 0 := by
  apply BitVec.eq_of_getLsbD_eq
  intro i hi
  rw [BitVec.getLsbD_and, getLsbD_place]
  by_cases h1 : lo ≤ i
  · by_cases h2 : i - lo < w
    · have := congrArg (fun b => b.getLsbD (i - lo)) hm
      simp only [BitVec.getLsbD_extractLsb', BitVec.getLsbD_zero, h2, decide_true, Bool.true_and, Nat.add_sub_cancel' h1] at this
      simp [this]
    · simp [testBit_eq_false_of_lt hx (Nat.le_of_not_lt h2)]
  · simp [h1]

/-- The opcode placed in `cmd[31:24]` is the pattern of the command's row, under the row's mask. -/
theorem opcode_and_mask (op : Op) : place op.opcode 24 &&& (rowOf op).mask = (rowOf op).pattern := by cases op <;> rfl

/-- A command's word matches its row when its operands meet no 1 of the row's mask. -/
theorem matches_of_operandBits {i : Instr} (h : operandBits i &&& (rowOf i.op).mask = 0) :
    (rowOf i.op).matchesWord (encodeCmd i) = true := by
  rw [OpcodeRow.matchesWord, encodeCmd, BitVec.and_or_distrib_right, opcode_and_mask, h]
  simp

end Sys2Proof
end

