-- ==== Sys2Proof/Laws/Lanes.lean ====
section
/-! SUPPORT. What the lane operations do lane by lane. -/

namespace Sys2Proof.Machine

theorem lanes_ext {α : Type} {a b : Lanes α} (h : ∀ j, lane a j = lane b j) : a = b := by
  cases a; cases b
  have h0 := h 0; have h1 := h 1; have h2 := h 2; have h3 := h 3
  simp_all [lane]

theorem lane_setLane {α : Type} (g : Lanes α) (j k : LaneIdx) (x : α) :
    lane (setLane g j x) k = if k = j then x else lane g k := by
  fin_cases j <;> fin_cases k <;> rfl

@[simp] theorem lane_mapLanes (f : Word → Word) (a : LaneGroup) (j : LaneIdx) :
    lane (mapLanes f a) j = f (lane a j) := by
  fin_cases j <;> rfl

@[simp] theorem lane_lanewise (f : Word → Word → Word) (a b : LaneGroup) (j : LaneIdx) :
    lane (lanewise f a b) j = f (lane a j) (lane b j) := by
  fin_cases j <;> rfl

@[simp] theorem lane_addLanes (a b : LaneGroup) (j : LaneIdx) : lane (addLanes a b) j = lane a j + lane b j :=
  lane_lanewise _ a b j

@[simp] theorem lane_orLanes (a b : LaneGroup) (j : LaneIdx) : lane (orLanes a b) j = lane a j ||| lane b j :=
  lane_lanewise _ a b j

@[simp] theorem lane_xorLanes (a b : LaneGroup) (j : LaneIdx) : lane (xorLanes a b) j = lane a j ^^^ lane b j :=
  lane_lanewise _ a b j

@[simp] theorem lane_shiftRightLanes (a : LaneGroup) (n : Nat) (j : LaneIdx) :
    lane (shiftRightLanes a n) j = lane a j >>> n := lane_mapLanes _ a j

@[simp] theorem lane_shiftLeftLanes (a : LaneGroup) (n : Nat) (j : LaneIdx) :
    lane (shiftLeftLanes a n) j = lane a j <<< n := lane_mapLanes _ a j

@[simp] theorem lane_allTrue (j : LaneIdx) : lane (⟨true, true, true, true⟩ : Lanes Bool) j = true := by
  fin_cases j <;> rfl

/-- A group put on a bus and taken off again is the same group (40_lane_group.md R108). -/
@[simp] theorem unpackGroup_packGroup (g : LaneGroup) : unpackGroup (packGroup g) = g := by
  obtain ⟨a, b, c, d⟩ := g
  simp only [unpackGroup, packGroup, Lanes.mk.injEq]
  refine ⟨?_, ?_, ?_, ?_⟩ <;>
    · apply BitVec.eq_of_getLsbD_eq
      intro i hi
      simp only [BitVec.getLsbD_extractLsb', BitVec.getLsbD_append]
      grind

end Sys2Proof.Machine
end

