-- ==== Sys2Proof/Laws/Memory.lean ====
section
/-! SUPPORT. The laws of the message-block memory: read after write, the canonical form, and what a big-endian word read
or write does byte by byte (10_state.md R24, 20_memory.md R52 to R54). -/

namespace Sys2Proof.Machine

/-! ### One byte -/

theorem readByte_writeByte_self (m : List Host.Cell) (a : Nat) (b : Byte) : readByte (writeByte a b m) a = some b := by
  induction m with
  | nil => simp [writeByte, readByte]
  | cons c m ih =>
    obtain ⟨x, y⟩ := c
    simp only [writeByte]
    split
    · simp [readByte]
    · split
      · simp [readByte]
      · rw [readByte, if_neg (by omega), ih]

theorem readByte_writeByte_ne (m : List Host.Cell) {a a' : Nat} (b : Byte) (h : a' ≠ a) :
    readByte (writeByte a b m) a' = readByte m a' := by
  induction m with
  | nil => simp [writeByte, readByte, Ne.symm h]
  | cons c m ih =>
    obtain ⟨x, y⟩ := c
    simp only [writeByte]
    split
    · simp [readByte, Ne.symm h]
    · split
      · rename_i h2; subst h2; simp [readByte, Ne.symm h]
      · simp [readByte, ih]

theorem readByte_writeByte (m : List Host.Cell) (a a' : Nat) (b : Byte) :
    readByte (writeByte a b m) a' = if a' = a then some b else readByte m a' := by
  split
  · next h => subst h; exact readByte_writeByte_self m a' b
  · next h => exact readByte_writeByte_ne m b h

/-- The addresses of a written memory: the old ones and the written one. -/
theorem mem_keys_writeByte {m : List Host.Cell} {a : Nat} {b : Byte} {c : Host.Cell} (h : c ∈ writeByte a b m) :
    c.1 = a ∨ c ∈ m := by
  induction m with
  | nil => simp [writeByte] at h; simp [h]
  | cons d m ih =>
    obtain ⟨x, y⟩ := d
    simp only [writeByte] at h
    split at h
    · rcases List.mem_cons.1 h with rfl | h
      · exact .inl rfl
      · exact .inr h
    · split at h
      · rcases List.mem_cons.1 h with rfl | h
        · exact .inl rfl
        · exact .inr (List.mem_cons_of_mem _ h)
      · rcases List.mem_cons.1 h with rfl | h
        · exact .inr (List.mem_cons_self ..)
        · exact (ih h).imp_right (List.mem_cons_of_mem _)

/-- Writing a byte of BLK keeps the canonical form. -/
theorem blkWf_writeByte {m : List Host.Cell} (h : blkWf m) {a : Nat} (ha : a < 64) (b : Byte) :
    blkWf (writeByte a b m) := by
  refine ⟨?_, fun c hc => ?_⟩
  · have hp := h.1
    clear h
    induction m with
    | nil => simp [writeByte]
    | cons d m ih =>
      obtain ⟨x, y⟩ := d
      rw [List.pairwise_cons] at hp
      simp only [writeByte]
      split
      · rename_i hx
        refine List.pairwise_cons.2 ⟨fun c hc => ?_, List.pairwise_cons.2 hp⟩
        rcases List.mem_cons.1 hc with rfl | hc
        · exact hx
        · exact Nat.lt_trans hx (hp.1 c hc)
      · split
        · rename_i hx; subst hx
          exact List.pairwise_cons.2 hp
        · refine List.pairwise_cons.2 ⟨fun c hc => ?_, ih hp.2⟩
          rcases mem_keys_writeByte hc with hc | hc
          · simp only; omega
          · exact hp.1 c hc
  · rcases mem_keys_writeByte hc with hc | hc
    · omega
    · exact h.2 c hc

/-- Two canonical memories that read alike at every address are the same list. -/
theorem blk_ext {m m' : List Host.Cell} (h : blkWf m) (h' : blkWf m') (e : ∀ a, readByte m a = readByte m' a) : m = m' := by
  have key : ∀ {m : List Host.Cell} {a : Nat}, (∀ c ∈ m, a < c.1) → readByte m a = none := by
    intro m
    induction m with
    | nil => intros; rfl
    | cons c m ih =>
      intro a hc
      obtain ⟨x, y⟩ := c
      have := hc (x, y) (List.mem_cons_self ..)
      rw [readByte, if_neg (by simp only at this; omega)]
      exact ih fun d hd => hc d (List.mem_cons_of_mem _ hd)
  obtain ⟨h, -⟩ := h
  obtain ⟨h', -⟩ := h'
  induction m generalizing m' with
  | nil =>
    cases m' with
    | nil => rfl
    | cons c m' => obtain ⟨x, y⟩ := c; have := e x; simp [readByte] at this
  | cons c m ih =>
    obtain ⟨x, y⟩ := c
    cases m' with
    | nil => have := e x; simp [readByte] at this
    | cons c' m' =>
      obtain ⟨x', y'⟩ := c'
      rw [List.pairwise_cons] at h h'
      have hxx : x = x' := by
        by_contra hne
        rcases Nat.lt_or_gt_of_ne hne with hlt | hgt
        · have := e x
          rw [readByte, if_pos rfl, readByte, if_neg (by omega),
            key fun d hd => Nat.lt_trans hlt (h'.1 d hd)] at this
          exact absurd this (by simp)
        · have := e x'
          rw [readByte, if_neg (by omega), readByte, if_pos rfl,
            key fun d hd => Nat.lt_trans hgt (h.1 d hd)] at this
          exact absurd this (by simp)
      subst hxx
      have hy := e x
      simp only [readByte, if_true, Option.some.injEq] at hy
      subst hy
      congr 1
      refine ih (fun a => ?_) h.2 h'.2
      by_cases ha : x = a
      · subst ha
        rw [key h.1, key h'.1]
      · have := e a
        simpa [readByte, ha] using this

/-! ### One word -/

@[simp] theorem byteAddr_val (i : WordIdx) (k : Fin 4) : (byteAddr i k).val = 4 * i.val + k.val := rfl

/-- Byte `k` of the word written is bits `[31-8k : 24-8k]` (44_host.md R206); every other address reads as before. -/
theorem readByte_memWrite4 (m : List Host.Cell) (i : WordIdx) (x : Word) (a : Nat) :
    readByte (memWrite4 i x m) a =
      if a = 4 * i.val then some (x.extractLsb' 24 8)
      else if a = 4 * i.val + 1 then some (x.extractLsb' 16 8)
      else if a = 4 * i.val + 2 then some (x.extractLsb' 8 8)
      else if a = 4 * i.val + 3 then some (x.extractLsb' 0 8)
      else readByte m a := by
  simp only [memWrite4, readByte_writeByte, byteAddr_val]
  split_ifs <;> first | rfl | (exfalso; simp_all)

theorem blkWf_memWrite4 {m : List Host.Cell} (h : blkWf m) (i : WordIdx) (x : Word) : blkWf (memWrite4 i x m) := by
  unfold memWrite4
  exact blkWf_writeByte (blkWf_writeByte (blkWf_writeByte (blkWf_writeByte h (byteAddr i 0).2 _) (byteAddr i 1).2 _)
    (byteAddr i 2).2 _) (byteAddr i 3).2 _

theorem memRead1_ok {m : List Host.Cell} {a : ByteIdx} {b : Byte} (h : readByte m a.val = some b) : memRead1 m a = .ok b := by
  simp [memRead1, h]

theorem memRead1_error {m : List Host.Cell} {a : ByteIdx} (h : readByte m a.val = none) :
    memRead1 m a = .error (.blk a) := by
  simp [memRead1, h]

/-- A byte read answers the byte there, or stops on that very byte unwritten. -/
theorem memRead1_cases (m : List Host.Cell) (a : ByteIdx) :
    (∃ b, readByte m a.val = some b ∧ memRead1 m a = .ok b) ∨ (readByte m a.val = none ∧ memRead1 m a = .error (.blk a)) := by
  cases h : readByte m a.val with
  | none => exact .inr ⟨rfl, memRead1_error h⟩
  | some b => exact .inl ⟨b, rfl, memRead1_ok h⟩

/-- The word read is the four bytes, most significant first (10_state.md R24). -/
theorem memRead4_ok {m : List Host.Cell} {i : WordIdx} {b0 b1 b2 b3 : Byte}
    (h0 : readByte m (4 * i.val) = some b0) (h1 : readByte m (4 * i.val + 1) = some b1)
    (h2 : readByte m (4 * i.val + 2) = some b2) (h3 : readByte m (4 * i.val + 3) = some b3) :
    memRead4 m i = .ok (b0 ++ b1 ++ b2 ++ b3) := by
  have e0 : memRead1 m (byteAddr i 0) = .ok b0 := memRead1_ok (by simpa using h0)
  have e1 : memRead1 m (byteAddr i 1) = .ok b1 := memRead1_ok (by simpa using h1)
  have e2 : memRead1 m (byteAddr i 2) = .ok b2 := memRead1_ok (by simpa using h2)
  have e3 : memRead1 m (byteAddr i 3) = .ok b3 := memRead1_ok (by simpa using h3)
  simp only [memRead4, e0, e1, e2, e3]
  rfl

/-- A word read either answers its four bytes or stops on an unwritten one of them. -/
theorem memRead4_cases (m : List Host.Cell) (i : WordIdx) :
    (∃ b0 b1 b2 b3, readByte m (4 * i.val) = some b0 ∧ readByte m (4 * i.val + 1) = some b1 ∧
      readByte m (4 * i.val + 2) = some b2 ∧ readByte m (4 * i.val + 3) = some b3 ∧
      memRead4 m i = .ok (b0 ++ b1 ++ b2 ++ b3)) ∨
    (∃ k : Fin 4, readByte m (byteAddr i k).val = none ∧ memRead4 m i = .error (.blk (byteAddr i k))) := by
  rcases memRead1_cases m (byteAddr i 0) with ⟨b0, r0, e0⟩ | ⟨r0, e0⟩
  · rcases memRead1_cases m (byteAddr i 1) with ⟨b1, r1, e1⟩ | ⟨r1, e1⟩
    · rcases memRead1_cases m (byteAddr i 2) with ⟨b2, r2, e2⟩ | ⟨r2, e2⟩
      · rcases memRead1_cases m (byteAddr i 3) with ⟨b3, r3, e3⟩ | ⟨r3, e3⟩
        · exact .inl ⟨b0, b1, b2, b3, by simpa using r0, by simpa using r1, by simpa using r2, by simpa using r3,
            memRead4_ok (by simpa using r0) (by simpa using r1) (by simpa using r2) (by simpa using r3)⟩
        · exact .inr ⟨3, r3, by simp only [memRead4, e0, e1, e2, e3]; rfl⟩
      · exact .inr ⟨2, r2, by simp only [memRead4, e0, e1, e2]; rfl⟩
    · exact .inr ⟨1, r1, by simp only [memRead4, e0, e1]; rfl⟩
  · exact .inr ⟨0, r0, by simp only [memRead4, e0]; rfl⟩

/-! ### The whole block -/

theorem memRead4_of_holds {m : List Host.Cell} {b : Block} (h : ∀ a : ByteIdx, readByte m a.val = some (b a)) (i : WordIdx) :
    memRead4 m i = .ok (blockWord b i) :=
  memRead4_ok (h ⟨4 * i.val, by omega⟩) (h ⟨4 * i.val + 1, by omega⟩) (h ⟨4 * i.val + 2, by omega⟩)
    (h ⟨4 * i.val + 3, by omega⟩)

/-- Schedule group `q` of a fully written block (10_state.md R29). -/
def blockGroup (b : Block) (q : Fin 4) : LaneGroup :=
  ⟨blockWord b ⟨4 * q.val + 3, by omega⟩, blockWord b ⟨4 * q.val + 2, by omega⟩, blockWord b ⟨4 * q.val + 1, by omega⟩,
    blockWord b ⟨4 * q.val, by omega⟩⟩

theorem readBlockGroup_of_holds {m : List Host.Cell} {b : Block} (h : ∀ a : ByteIdx, readByte m a.val = some (b a))
    (q : Fin 4) : readBlockGroup m q = .ok (blockGroup b q) := by
  simp only [readBlockGroup, memRead4_of_holds h]
  rfl

/-- Reading a fully written block answers its four schedule groups (43_compressor.md R173). -/
theorem readBlock_of_holds {m : List Host.Cell} {b : Block} (h : ∀ a : ByteIdx, readByte m a.val = some (b a)) :
    readBlock m = .ok ⟨blockGroup b 0, blockGroup b 1, blockGroup b 2, blockGroup b 3⟩ := by
  simp only [readBlock, readBlockGroup_of_holds h]
  rfl

/-- A group read answers, with its sixteen bytes written, or stops on an unwritten byte. -/
theorem readBlockGroup_cases (m : List Host.Cell) (q : Fin 4) :
    ((∃ g, readBlockGroup m q = .ok g) ∧ ∀ a, 16 * q.val ≤ a → a < 16 * q.val + 16 → (readByte m a).isSome) ∨
    (∃ a : ByteIdx, readByte m a.val = none ∧ readBlockGroup m q = .error (.blk a)) := by
  rcases memRead4_cases m ⟨4 * q.val, by omega⟩ with ⟨a0, a1, a2, a3, r0, r1, r2, r3, e0⟩ | ⟨k, r, e0⟩
  · rcases memRead4_cases m ⟨4 * q.val + 1, by omega⟩ with ⟨b0, b1, b2, b3, s0, s1, s2, s3, e1⟩ | ⟨k, r, e1⟩
    · rcases memRead4_cases m ⟨4 * q.val + 2, by omega⟩ with ⟨c0, c1, c2, c3, t0, t1, t2, t3, e2⟩ | ⟨k, r, e2⟩
      · rcases memRead4_cases m ⟨4 * q.val + 3, by omega⟩ with ⟨d0, d1, d2, d3, u0, u1, u2, u3, e3⟩ | ⟨k, r, e3⟩
        · refine .inl ⟨⟨_, by simp only [readBlockGroup, e0, e1, e2, e3]; rfl⟩, fun a h h' => ?_⟩
          obtain ⟨k, rfl⟩ := Nat.exists_eq_add_of_le h
          have hk : k < 16 := by omega
          simp only at r0 r1 r2 r3 s0 s1 s2 s3 t0 t1 t2 t3 u0 u1 u2 u3
          have e16 : 4 * (4 * q.val) = 16 * q.val := by omega
          have e17 : 4 * (4 * q.val + 1) = 16 * q.val + 4 := by omega
          have e18 : 4 * (4 * q.val + 2) = 16 * q.val + 8 := by omega
          have e19 : 4 * (4 * q.val + 3) = 16 * q.val + 12 := by omega
          simp only [e16, e17, e18, e19, Nat.add_assoc, Nat.reduceAdd] at r0 r1 r2 r3 s0 s1 s2 s3 t0 t1 t2 t3 u0 u1 u2 u3
          interval_cases k <;> simp_all
        · exact .inr ⟨_, r, by simp only [readBlockGroup, e0, e1, e2, e3]; rfl⟩
      · exact .inr ⟨_, r, by simp only [readBlockGroup, e0, e1, e2]; rfl⟩
    · exact .inr ⟨_, r, by simp only [readBlockGroup, e0, e1]; rfl⟩
  · exact .inr ⟨_, r, by simp only [readBlockGroup, e0]; rfl⟩

/-- Reading the block answers exactly when every byte is written; else it stops on an unwritten byte. -/
theorem readBlock_cases (m : List Host.Cell) :
    ((∃ g, readBlock m = .ok g) ∧ ∀ a : ByteIdx, (readByte m a.val).isSome) ∨
    (∃ a : ByteIdx, readByte m a.val = none ∧ readBlock m = .error (.blk a)) := by
  rcases readBlockGroup_cases m 0 with ⟨⟨g0, e0⟩, f0⟩ | ⟨a, r, e0⟩
  · rcases readBlockGroup_cases m 1 with ⟨⟨g1, e1⟩, f1⟩ | ⟨a, r, e1⟩
    · rcases readBlockGroup_cases m 2 with ⟨⟨g2, e2⟩, f2⟩ | ⟨a, r, e2⟩
      · rcases readBlockGroup_cases m 3 with ⟨⟨g3, e3⟩, f3⟩ | ⟨a, r, e3⟩
        · refine .inl ⟨⟨_, by simp only [readBlock, e0, e1, e2, e3]; rfl⟩, fun a => ?_⟩
          have ha := a.2
          simp only [Fin.isValue, Fin.val_zero, Fin.val_one, Fin.val_two] at f0 f1 f2 f3
          rcases Nat.lt_or_ge a.val 16 with h | h
          · exact f0 _ (by omega) (by omega)
          rcases Nat.lt_or_ge a.val 32 with h | h
          · exact f1 _ (by omega) (by omega)
          rcases Nat.lt_or_ge a.val 48 with h | h
          · exact f2 _ (by omega) (by omega)
          · exact f3 _ (by simp; omega) (by simp)
        · exact .inr ⟨a, r, by simp only [readBlock, e0, e1, e2, e3]; rfl⟩
      · exact .inr ⟨a, r, by simp only [readBlock, e0, e1, e2]; rfl⟩
    · exact .inr ⟨a, r, by simp only [readBlock, e0, e1]; rfl⟩
  · exact .inr ⟨a, r, by simp only [readBlock, e0]; rfl⟩

/-- A state whose every BLK byte is written holds some block. -/
theorem holdsBlock_of_blkFull {s : State} (h : s.BlkFull) : ∃ b, s.HoldsBlock b :=
  ⟨fun a => (readByte s.blk a.val).get (h a), fun _ => by simp⟩

theorem blkFull_of_holdsBlock {s : State} {b : Block} (h : s.HoldsBlock b) : s.BlkFull := fun a => by simp [h a]

end Sys2Proof.Machine
end

