-- ==== Sys2Proof/Laws/State.lean ====
section
/-! SUPPORT. One lemma per field of State and named update: what the field is afterwards. -/

namespace Sys2Proof.Machine

variable (s : State)

/-! ### `writeHash` -/

@[simp] theorem State.writeHash_hash (i : StateIdx) (x : Word) : (s.writeHash i x).hash = s.hash.set i.val x := rfl
@[simp] theorem State.writeHash_hashMarks (i : StateIdx) (x : Word) : (s.writeHash i x).hashMarks = s.hashMarks.set i.val true := rfl
@[simp] theorem State.writeHash_blk (i : StateIdx) (x : Word) : (s.writeHash i x).blk = s.blk := rfl
@[simp] theorem State.writeHash_v (i : StateIdx) (x : Word) : (s.writeHash i x).v = s.v := rfl
@[simp] theorem State.writeHash_vMarks (i : StateIdx) (x : Word) : (s.writeHash i x).vMarks = s.vMarks := rfl
@[simp] theorem State.writeHash_abef (i : StateIdx) (x : Word) : (s.writeHash i x).abef = s.abef := rfl
@[simp] theorem State.writeHash_cdgh (i : StateIdx) (x : Word) : (s.writeHash i x).cdgh = s.cdgh := rfl
@[simp] theorem State.writeHash_win (i : StateIdx) (x : Word) : (s.writeHash i x).win = s.win := rfl
@[simp] theorem State.writeHash_phase (i : StateIdx) (x : Word) : (s.writeHash i x).phase = s.phase := rfl
@[simp] theorem State.writeHash_grp (i : StateIdx) (x : Word) : (s.writeHash i x).grp = s.grp := rfl
@[simp] theorem State.writeHash_err (i : StateIdx) (x : Word) : (s.writeHash i x).err = s.err := rfl
@[simp] theorem State.writeHash_errCode (i : StateIdx) (x : Word) : (s.writeHash i x).errCode = s.errCode := rfl
@[simp] theorem State.writeHash_dout (i : StateIdx) (x : Word) : (s.writeHash i x).dout = s.dout := rfl
@[simp] theorem State.writeHash_port (i : StateIdx) (x : Word) : (s.writeHash i x).port = s.port := rfl

/-! ### `writeV` -/

@[simp] theorem State.writeV_hash (r : VReg) (g : LaneGroup) : (s.writeV r g).hash = s.hash := rfl
@[simp] theorem State.writeV_hashMarks (r : VReg) (g : LaneGroup) : (s.writeV r g).hashMarks = s.hashMarks := rfl
@[simp] theorem State.writeV_blk (r : VReg) (g : LaneGroup) : (s.writeV r g).blk = s.blk := rfl
@[simp] theorem State.writeV_v (r : VReg) (g : LaneGroup) : (s.writeV r g).v = s.v.set r.val g := rfl
@[simp] theorem State.writeV_vMarks (r : VReg) (g : LaneGroup) : (s.writeV r g).vMarks = s.vMarks.set r.val ⟨true, true, true, true⟩ := rfl
@[simp] theorem State.writeV_abef (r : VReg) (g : LaneGroup) : (s.writeV r g).abef = s.abef := rfl
@[simp] theorem State.writeV_cdgh (r : VReg) (g : LaneGroup) : (s.writeV r g).cdgh = s.cdgh := rfl
@[simp] theorem State.writeV_win (r : VReg) (g : LaneGroup) : (s.writeV r g).win = s.win := rfl
@[simp] theorem State.writeV_phase (r : VReg) (g : LaneGroup) : (s.writeV r g).phase = s.phase := rfl
@[simp] theorem State.writeV_grp (r : VReg) (g : LaneGroup) : (s.writeV r g).grp = s.grp := rfl
@[simp] theorem State.writeV_err (r : VReg) (g : LaneGroup) : (s.writeV r g).err = s.err := rfl
@[simp] theorem State.writeV_errCode (r : VReg) (g : LaneGroup) : (s.writeV r g).errCode = s.errCode := rfl
@[simp] theorem State.writeV_dout (r : VReg) (g : LaneGroup) : (s.writeV r g).dout = s.dout := rfl
@[simp] theorem State.writeV_port (r : VReg) (g : LaneGroup) : (s.writeV r g).port = s.port := rfl

/-! ### `writeLane` -/

@[simp] theorem State.writeLane_hash (r : VReg) (j : LaneIdx) (x : Word) : (s.writeLane r j x).hash = s.hash := rfl
@[simp] theorem State.writeLane_hashMarks (r : VReg) (j : LaneIdx) (x : Word) : (s.writeLane r j x).hashMarks = s.hashMarks := rfl
@[simp] theorem State.writeLane_blk (r : VReg) (j : LaneIdx) (x : Word) : (s.writeLane r j x).blk = s.blk := rfl
@[simp] theorem State.writeLane_v (r : VReg) (j : LaneIdx) (x : Word) : (s.writeLane r j x).v = s.v.set r.val (setLane s.v[r.val] j x) := rfl
@[simp] theorem State.writeLane_vMarks (r : VReg) (j : LaneIdx) (x : Word) : (s.writeLane r j x).vMarks = s.vMarks.set r.val (setLane s.vMarks[r.val] j true) := rfl
@[simp] theorem State.writeLane_abef (r : VReg) (j : LaneIdx) (x : Word) : (s.writeLane r j x).abef = s.abef := rfl
@[simp] theorem State.writeLane_cdgh (r : VReg) (j : LaneIdx) (x : Word) : (s.writeLane r j x).cdgh = s.cdgh := rfl
@[simp] theorem State.writeLane_win (r : VReg) (j : LaneIdx) (x : Word) : (s.writeLane r j x).win = s.win := rfl
@[simp] theorem State.writeLane_phase (r : VReg) (j : LaneIdx) (x : Word) : (s.writeLane r j x).phase = s.phase := rfl
@[simp] theorem State.writeLane_grp (r : VReg) (j : LaneIdx) (x : Word) : (s.writeLane r j x).grp = s.grp := rfl
@[simp] theorem State.writeLane_err (r : VReg) (j : LaneIdx) (x : Word) : (s.writeLane r j x).err = s.err := rfl
@[simp] theorem State.writeLane_errCode (r : VReg) (j : LaneIdx) (x : Word) : (s.writeLane r j x).errCode = s.errCode := rfl
@[simp] theorem State.writeLane_dout (r : VReg) (j : LaneIdx) (x : Word) : (s.writeLane r j x).dout = s.dout := rfl
@[simp] theorem State.writeLane_port (r : VReg) (j : LaneIdx) (x : Word) : (s.writeLane r j x).port = s.port := rfl

/-! ### `setDout` -/

@[simp] theorem State.setDout_hash (x : Word) : (s.setDout x).hash = s.hash := rfl
@[simp] theorem State.setDout_hashMarks (x : Word) : (s.setDout x).hashMarks = s.hashMarks := rfl
@[simp] theorem State.setDout_blk (x : Word) : (s.setDout x).blk = s.blk := rfl
@[simp] theorem State.setDout_v (x : Word) : (s.setDout x).v = s.v := rfl
@[simp] theorem State.setDout_vMarks (x : Word) : (s.setDout x).vMarks = s.vMarks := rfl
@[simp] theorem State.setDout_abef (x : Word) : (s.setDout x).abef = s.abef := rfl
@[simp] theorem State.setDout_cdgh (x : Word) : (s.setDout x).cdgh = s.cdgh := rfl
@[simp] theorem State.setDout_win (x : Word) : (s.setDout x).win = s.win := rfl
@[simp] theorem State.setDout_phase (x : Word) : (s.setDout x).phase = s.phase := rfl
@[simp] theorem State.setDout_grp (x : Word) : (s.setDout x).grp = s.grp := rfl
@[simp] theorem State.setDout_err (x : Word) : (s.setDout x).err = s.err := rfl
@[simp] theorem State.setDout_errCode (x : Word) : (s.setDout x).errCode = s.errCode := rfl
@[simp] theorem State.setDout_dout (x : Word) : (s.setDout x).dout = x := rfl
@[simp] theorem State.setDout_port (x : Word) : (s.setDout x).port = s.port := rfl

/-! ### `setBlk` -/

@[simp] theorem State.setBlk_hash (m : List Host.Cell) : (s.setBlk m).hash = s.hash := rfl
@[simp] theorem State.setBlk_hashMarks (m : List Host.Cell) : (s.setBlk m).hashMarks = s.hashMarks := rfl
@[simp] theorem State.setBlk_blk (m : List Host.Cell) : (s.setBlk m).blk = m := rfl
@[simp] theorem State.setBlk_v (m : List Host.Cell) : (s.setBlk m).v = s.v := rfl
@[simp] theorem State.setBlk_vMarks (m : List Host.Cell) : (s.setBlk m).vMarks = s.vMarks := rfl
@[simp] theorem State.setBlk_abef (m : List Host.Cell) : (s.setBlk m).abef = s.abef := rfl
@[simp] theorem State.setBlk_cdgh (m : List Host.Cell) : (s.setBlk m).cdgh = s.cdgh := rfl
@[simp] theorem State.setBlk_win (m : List Host.Cell) : (s.setBlk m).win = s.win := rfl
@[simp] theorem State.setBlk_phase (m : List Host.Cell) : (s.setBlk m).phase = s.phase := rfl
@[simp] theorem State.setBlk_grp (m : List Host.Cell) : (s.setBlk m).grp = s.grp := rfl
@[simp] theorem State.setBlk_err (m : List Host.Cell) : (s.setBlk m).err = s.err := rfl
@[simp] theorem State.setBlk_errCode (m : List Host.Cell) : (s.setBlk m).errCode = s.errCode := rfl
@[simp] theorem State.setBlk_dout (m : List Host.Cell) : (s.setBlk m).dout = s.dout := rfl
@[simp] theorem State.setBlk_port (m : List Host.Cell) : (s.setBlk m).port = s.port := rfl

/-! ### `setPort` -/

@[simp] theorem State.setPort_hash (es : List PortEvent) : (s.setPort es).hash = s.hash := rfl
@[simp] theorem State.setPort_hashMarks (es : List PortEvent) : (s.setPort es).hashMarks = s.hashMarks := rfl
@[simp] theorem State.setPort_blk (es : List PortEvent) : (s.setPort es).blk = s.blk := rfl
@[simp] theorem State.setPort_v (es : List PortEvent) : (s.setPort es).v = s.v := rfl
@[simp] theorem State.setPort_vMarks (es : List PortEvent) : (s.setPort es).vMarks = s.vMarks := rfl
@[simp] theorem State.setPort_abef (es : List PortEvent) : (s.setPort es).abef = s.abef := rfl
@[simp] theorem State.setPort_cdgh (es : List PortEvent) : (s.setPort es).cdgh = s.cdgh := rfl
@[simp] theorem State.setPort_win (es : List PortEvent) : (s.setPort es).win = s.win := rfl
@[simp] theorem State.setPort_phase (es : List PortEvent) : (s.setPort es).phase = s.phase := rfl
@[simp] theorem State.setPort_grp (es : List PortEvent) : (s.setPort es).grp = s.grp := rfl
@[simp] theorem State.setPort_err (es : List PortEvent) : (s.setPort es).err = s.err := rfl
@[simp] theorem State.setPort_errCode (es : List PortEvent) : (s.setPort es).errCode = s.errCode := rfl
@[simp] theorem State.setPort_dout (es : List PortEvent) : (s.setPort es).dout = s.dout := rfl
@[simp] theorem State.setPort_port (es : List PortEvent) : (s.setPort es).port = es := rfl

/-! ### `raiseError` -/

@[simp] theorem State.raiseError_hash (e : ErrorKind) : (s.raiseError e).hash = s.hash := rfl
@[simp] theorem State.raiseError_hashMarks (e : ErrorKind) : (s.raiseError e).hashMarks = s.hashMarks := rfl
@[simp] theorem State.raiseError_blk (e : ErrorKind) : (s.raiseError e).blk = s.blk := rfl
@[simp] theorem State.raiseError_v (e : ErrorKind) : (s.raiseError e).v = s.v := rfl
@[simp] theorem State.raiseError_vMarks (e : ErrorKind) : (s.raiseError e).vMarks = s.vMarks := rfl
@[simp] theorem State.raiseError_abef (e : ErrorKind) : (s.raiseError e).abef = s.abef := rfl
@[simp] theorem State.raiseError_cdgh (e : ErrorKind) : (s.raiseError e).cdgh = s.cdgh := rfl
@[simp] theorem State.raiseError_win (e : ErrorKind) : (s.raiseError e).win = s.win := rfl
@[simp] theorem State.raiseError_phase (e : ErrorKind) : (s.raiseError e).phase = s.phase := rfl
@[simp] theorem State.raiseError_grp (e : ErrorKind) : (s.raiseError e).grp = s.grp := rfl
@[simp] theorem State.raiseError_err (e : ErrorKind) : (s.raiseError e).err = true := rfl
@[simp] theorem State.raiseError_errCode (e : ErrorKind) : (s.raiseError e).errCode = if s.err then s.errCode else errorCode e := rfl
@[simp] theorem State.raiseError_dout (e : ErrorKind) : (s.raiseError e).dout = s.dout := rfl
@[simp] theorem State.raiseError_port (e : ErrorKind) : (s.raiseError e).port = s.port := rfl

/-! ### Derived views -/

@[simp] theorem State.setDout_status (x : Word) : (s.setDout x).status = s.status := rfl
@[simp] theorem State.setPort_status (es : List PortEvent) : (s.setPort es).status = s.status := rfl
@[simp] theorem State.setPort_hashWord (es : List PortEvent) (i : StateIdx) : (s.setPort es).hashWord i = s.hashWord i := rfl
@[simp] theorem State.setPort_vGroup (es : List PortEvent) (r : VReg) : (s.setPort es).vGroup r = s.vGroup r := rfl
@[simp] theorem State.setPort_vLane (es : List PortEvent) (r : VReg) (j : LaneIdx) :
    (s.setPort es).vLane r j = s.vLane r j := rfl
@[simp] theorem State.setPort_setPort (es fs : List PortEvent) : (s.setPort es).setPort fs = s.setPort fs := rfl
@[simp] theorem State.setPort_self : s.setPort s.port = s := rfl
@[simp] theorem State.setDout_setDout (x y : Word) : (s.setDout x).setDout y = s.setDout y := rfl
@[simp] theorem State.busy_eq_false : s.busy = false ↔ s.phase = .idle := by simp [State.busy]
@[simp] theorem State.busy_eq_true : s.busy = true ↔ s.phase ≠ .idle := by simp [State.busy]

end Sys2Proof.Machine
end

