-- ==== Sys2Proof/Laws/Registers.lean ====
section
/-! SUPPORT. Read after write for the registers and the written marks (10_state.md R20, R26, 70_reset_and_hazards.md R264). -/

namespace Sys2Proof.Machine

variable (s : State)

/-! ### STATE -/

theorem State.hashWord_writeHash (i j : StateIdx) (x : Word) :
    (s.writeHash i x).hashWord j = if j = i then x else s.hashWord j := by
  simp only [State.hashWord, State.writeHash_hash, Vector.getElem_set, Fin.ext_iff, eq_comm]

@[simp] theorem State.hashWord_writeHash_self (i : StateIdx) (x : Word) : (s.writeHash i x).hashWord i = x := by
  simp [State.hashWord_writeHash]

theorem State.cellWritten_writeHash (i : StateIdx) (x : Word) (c : StateCell) :
    (s.writeHash i x).cellWritten c = if c = .hash i then true else s.cellWritten c := by
  cases c with
  | hash j => simp [State.cellWritten, Vector.getElem_set, Fin.ext_iff, eq_comm]
  | blk a => simp [State.cellWritten]
  | lane r j => simp [State.cellWritten]

/-- Two files of STATE words are equal when every word is. -/
theorem hash_ext {h h' : Vector Word 8} (e : ∀ i : StateIdx, h[i.val] = h'[i.val]) : h = h' :=
  Vector.ext fun i hi => e ⟨i, hi⟩

/-! ### V -/

theorem State.vGroup_writeV (r r' : VReg) (g : LaneGroup) :
    (s.writeV r g).vGroup r' = if r' = r then g else s.vGroup r' := by
  simp only [State.vGroup, State.writeV_v, Vector.getElem_set, Fin.ext_iff, eq_comm]

@[simp] theorem State.vGroup_writeV_self (r : VReg) (g : LaneGroup) : (s.writeV r g).vGroup r = g := by
  simp [State.vGroup_writeV]

theorem State.vLane_writeV (r r' : VReg) (g : LaneGroup) (j : LaneIdx) :
    (s.writeV r g).vLane r' j = if r' = r then lane g j else s.vLane r' j := by
  simp only [State.vLane, State.vGroup_writeV]
  split <;> rfl

theorem State.vLane_writeLane (r r' : VReg) (j j' : LaneIdx) (x : Word) :
    (s.writeLane r j x).vLane r' j' = if r' = r ∧ j' = j then x else s.vLane r' j' := by
  simp only [State.vLane, State.vGroup, State.writeLane_v, Vector.getElem_set]
  by_cases h : r = r'
  · subst h; simp [lane_setLane]
  · simp [Fin.val_ne_of_ne h, Ne.symm h]

theorem State.cellWritten_writeV (r : VReg) (g : LaneGroup) (c : StateCell) :
    (s.writeV r g).cellWritten c = if ∃ j, c = .lane r j then true else s.cellWritten c := by
  cases c with
  | hash i => simp [State.cellWritten]
  | blk a => simp [State.cellWritten]
  | lane r' j =>
    by_cases h : r = r'
    · subst h; simp [State.cellWritten]
    · simp [State.cellWritten, Fin.val_ne_of_ne h, Ne.symm h]

theorem State.cellWritten_writeLane (r : VReg) (j : LaneIdx) (x : Word) (c : StateCell) :
    (s.writeLane r j x).cellWritten c = if c = .lane r j then true else s.cellWritten c := by
  cases c with
  | hash i => simp [State.cellWritten]
  | blk a => simp [State.cellWritten]
  | lane r' j' =>
    by_cases h : r = r'
    · subst h; simp [State.cellWritten, lane_setLane]
    · simp [State.cellWritten, Fin.val_ne_of_ne h, Ne.symm h]

/-- Two V files are equal when every lane is. -/
theorem v_ext {v v' : Vector LaneGroup 16} (e : ∀ (r : VReg) (j : LaneIdx), lane v[r.val] j = lane v'[r.val] j) : v = v' :=
  Vector.ext fun i hi => lanes_ext (e ⟨i, hi⟩)

/-! ### BLK -/

theorem State.cellWritten_setBlk (m : List Host.Cell) (c : StateCell) :
    (s.setBlk m).cellWritten c = match c with
      | .blk a => (readByte m a.val).isSome
      | c => s.cellWritten c := by
  cases c <;> rfl

/-! ### Marks under the other updates -/

@[simp] theorem State.cellWritten_setDout (x : Word) (c : StateCell) : (s.setDout x).cellWritten c = s.cellWritten c := by
  cases c <;> rfl

@[simp] theorem State.cellWritten_setPort (es : List PortEvent) (c : StateCell) :
    (s.setPort es).cellWritten c = s.cellWritten c := by
  cases c <;> rfl

@[simp] theorem State.cellWritten_raiseError (e : ErrorKind) (c : StateCell) :
    (s.raiseError e).cellWritten c = s.cellWritten c := by
  cases c <;> rfl

end Sys2Proof.Machine
end

