-- ==== Sys2Proof/Laws/Exec.lean ====
section
/-! SUPPORT. What the shared operations, `exec` and `step` can do, each said once: the BUSY gate, the read and the datapath
templates, an inversion of `exec` and of `step`. -/

namespace Sys2Proof.Machine

/-! ### The templates -/

theorem whenIdle_of_idle {s : State} (h : s.phase = .idle) (run : Result) : whenIdle s run = run := if_pos h

theorem whenIdle_of_busy {s : State} (h : s.phase ≠ .idle) (run : Result) :
    whenIdle s run = .next (s.raiseError .busy) := if_neg h

/-- The gate either lets the command run, with PHASE IDLE, or raises BUSY (60_exceptions.md R232). -/
theorem whenIdle_cases (s : State) (run : Result) :
    (s.phase = .idle ∧ whenIdle s run = run) ∨ (s.phase ≠ .idle ∧ whenIdle s run = .next (s.raiseError .busy)) := by
  by_cases h : s.phase = .idle
  · exact .inl ⟨h, whenIdle_of_idle h run⟩
  · exact .inr ⟨h, whenIdle_of_busy h run⟩

theorem whenIdle_eq_next {s t : State} {run : Result} (h : whenIdle s run = .next t) :
    (s.phase = .idle ∧ run = .next t) ∨ (s.phase ≠ .idle ∧ t = s.raiseError .busy) := by
  rcases whenIdle_cases s run with ⟨hi, e⟩ | ⟨hi, e⟩
  · exact .inl ⟨hi, e ▸ h⟩
  · exact .inr ⟨hi, by rw [e] at h; exact (Host.Outcome.next.inj h).symm⟩

/-- A datapath command writes its result or raises BUSY (40_lane_group.md R100). -/
theorem writeResult_eq_next {s t : State} {vd : VReg} {g : LaneGroup} (h : writeResult s vd g = .next t) :
    (s.phase = .idle ∧ t = s.writeV vd g) ∨ (s.phase ≠ .idle ∧ t = s.raiseError .busy) :=
  (whenIdle_eq_next h).imp_left fun ⟨hi, e⟩ => ⟨hi, (Host.Outcome.next.inj e).symm⟩

/-- A read command changes DOUT alone (44_host.md R200). -/
theorem readToDout_eq_next {s t : State} {v : Except StateCell Word} (h : readToDout s v = .next t) :
    ∃ x, v = .ok x ∧ t = s.setDout x := by
  cases v with
  | ok x => exact ⟨x, rfl, (Host.Outcome.next.inj h).symm⟩
  | error c => simp [readToDout] at h

/-! ### `exec` -/

/-- Everything a command can do to the state: one constructor per shape of effect. -/
inductive CommandEffect (i : Instr) (s : State) : State → Prop where
  /-- NOP. -/
  | nothing : i = .nop → CommandEffect i s s
  /-- RDSTATUS, at any time. -/
  | readStatus : i = .rdstatus → CommandEffect i s (s.setDout s.status)
  /-- RDSTATE, RDWORD or RDV, with PHASE IDLE. -/
  | read (x : Word) : s.phase = .idle →
      ((∃ idx, i = .rdstate idx ∧ x = s.hashWord idx) ∨ (∃ idx, i = .rdword idx ∧ memRead4 s.blk idx = .ok x) ∨
        ∃ r j, i = .rdv r j ∧ x = s.vLane r j) → CommandEffect i s (s.setDout x)
  /-- WRSTATE. -/
  | writeState (idx : StateIdx) (din : Word) : s.phase = .idle → i = .wrstate idx din →
      CommandEffect i s (s.writeHash idx din)
  /-- WRBYTE. -/
  | writeByte (a : ByteIdx) (din : Word) : s.phase = .idle → i = .wrbyte a din →
      CommandEffect i s (s.setBlk (Machine.writeByte a.val (din.extractLsb' 0 8) s.blk))
  /-- WRWORD. -/
  | writeWord (idx : WordIdx) (din : Word) : s.phase = .idle → i = .wrword idx din →
      CommandEffect i s (s.setBlk (memWrite4 idx din s.blk))
  /-- WRV. -/
  | writeOneLane (r : VReg) (j : LaneIdx) (din : Word) : s.phase = .idle → i = .wrv r j din →
      CommandEffect i s (s.writeLane r j din)
  /-- COMPRESS, with the whole block written. -/
  | startCompression (g : Lanes LaneGroup) : s.phase = .idle → i = .compress → readBlock s.blk = .ok g →
      CommandEffect i s { s with phase := .load, grp := 0 }
  /-- A datapath command with one result. -/
  | datapath (vd : VReg) (g : LaneGroup) : s.phase = .idle → destinations i = [vd] →
      CommandEffect i s (s.writeV vd g)
  /-- VRND4, with its two results. -/
  | datapathPair (vd va vb : VReg) (gr : GroupIdx) (g g' : LaneGroup) : s.phase = .idle → i = .vrnd4 vd va vb gr → vd ≠ va →
      CommandEffect i s ((s.writeV vd g).writeV va g')
  /-- BUSY. -/
  | refusedBusy : s.phase ≠ .idle → i ≠ .nop → i ≠ .rdstatus → CommandEffect i s (s.raiseError .busy)
  /-- VRND4 with `vd = va`. -/
  | refusedIllegal : i.wf = false → CommandEffect i s (s.raiseError .illegal)

theorem datapath_effect {i : Instr} {s t : State} {vd : VReg} {g : LaneGroup} (hd : destinations i = [vd])
    (hn : i ≠ .nop) (hr : i ≠ .rdstatus) (h : writeResult s vd g = .next t) : CommandEffect i s t := by
  rcases writeResult_eq_next h with ⟨hi, rfl⟩ | ⟨hb, rfl⟩
  · exact .datapath vd g hi hd
  · exact .refusedBusy hb hn hr

/-- The inversion of `exec`: a next state is one of the effects above. -/
theorem exec_effect {i : Instr} {s t : State} (h : exec i s = .next t) : CommandEffect i s t := by
  cases i with
  | nop => exact Host.Outcome.next.inj h ▸ .nothing rfl
  | rdstatus => exact Host.Outcome.next.inj h ▸ .readStatus rfl
  | wrstate idx din =>
    rcases whenIdle_eq_next h with ⟨hi, e⟩ | ⟨hb, rfl⟩
    · exact Host.Outcome.next.inj e ▸ .writeState idx din hi rfl
    · exact .refusedBusy hb (by simp) (by simp)
  | rdstate idx =>
    rcases whenIdle_eq_next h with ⟨hi, e⟩ | ⟨hb, rfl⟩
    · obtain ⟨x, hx, rfl⟩ := readToDout_eq_next e
      exact .read x hi (.inl ⟨idx, rfl, (Except.ok.inj hx).symm⟩)
    · exact .refusedBusy hb (by simp) (by simp)
  | wrbyte a din =>
    rcases whenIdle_eq_next h with ⟨hi, e⟩ | ⟨hb, rfl⟩
    · exact Host.Outcome.next.inj e ▸ .writeByte a din hi rfl
    · exact .refusedBusy hb (by simp) (by simp)
  | wrword idx din =>
    rcases whenIdle_eq_next h with ⟨hi, e⟩ | ⟨hb, rfl⟩
    · exact Host.Outcome.next.inj e ▸ .writeWord idx din hi rfl
    · exact .refusedBusy hb (by simp) (by simp)
  | rdword idx =>
    rcases whenIdle_eq_next h with ⟨hi, e⟩ | ⟨hb, rfl⟩
    · obtain ⟨x, hx, rfl⟩ := readToDout_eq_next e
      exact .read x hi (.inr (.inl ⟨idx, rfl, hx⟩))
    · exact .refusedBusy hb (by simp) (by simp)
  | wrv r j din =>
    rcases whenIdle_eq_next h with ⟨hi, e⟩ | ⟨hb, rfl⟩
    · exact Host.Outcome.next.inj e ▸ .writeOneLane r j din hi rfl
    · exact .refusedBusy hb (by simp) (by simp)
  | rdv r j =>
    rcases whenIdle_eq_next h with ⟨hi, e⟩ | ⟨hb, rfl⟩
    · obtain ⟨x, hx, rfl⟩ := readToDout_eq_next e
      exact .read x hi (.inr (.inr ⟨r, j, rfl, (Except.ok.inj hx).symm⟩))
    · exact .refusedBusy hb (by simp) (by simp)
  | compress =>
    rcases whenIdle_eq_next h with ⟨hi, e⟩ | ⟨hb, rfl⟩
    · cases hg : readBlock s.blk with
      | ok g =>
        rw [hg] at e
        exact Host.Outcome.next.inj e ▸ .startCompression g hi rfl hg
      | error c => rw [hg] at e; exact absurd e (by simp)
    · exact .refusedBusy hb (by simp) (by simp)
  | vsrl vd va n => exact datapath_effect rfl (by simp) (by simp) h
  | vsll vd va n => exact datapath_effect rfl (by simp) (by simp) h
  | vor vd va vb => exact datapath_effect rfl (by simp) (by simp) h
  | vxor vd va vb => exact datapath_effect rfl (by simp) (by simp) h
  | vadd vd va vb => exact datapath_effect rfl (by simp) (by simp) h
  | valign vd p n => exact datapath_effect rfl (by simp) (by simp) h
  | vmsg1 vd p n => exact datapath_effect rfl (by simp) (by simp) h
  | vmsg2 vd m l => exact datapath_effect rfl (by simp) (by simp) h
  | vsched vd w0 w1 w2 w3 => exact datapath_effect rfl (by simp) (by simp) h
  | vswap vd va => exact datapath_effect rfl (by simp) (by simp) h
  | vaddk vd va g => exact datapath_effect rfl (by simp) (by simp) h
  | vrnd2 vd c a k => exact datapath_effect rfl (by simp) (by simp) h
  | vrnd4 a c w g =>
    by_cases hac : a = c
    · have e : s.raiseError .illegal = t := by simpa [exec, execVrnd4, hac] using h
      exact e ▸ .refusedIllegal (by simp [Instr.wf, hac])
    · have h' : whenIdle s (.next ((s.writeV a (rounds4 (s.vGroup a) (s.vGroup c) (s.vGroup w) g).1).writeV c
          (rounds4 (s.vGroup a) (s.vGroup c) (s.vGroup w) g).2)) = .next t := by
        simpa [exec, execVrnd4, hac] using h
      rcases whenIdle_eq_next h' with ⟨hi, e⟩ | ⟨hb, rfl⟩
      · exact Host.Outcome.next.inj e ▸ .datapathPair a c w g _ _ hi rfl hac
      · exact .refusedBusy hb (by simp) (by simp)

/-- No command is refused. -/
theorem exec_ne_refused (i : Instr) (s : State) (r : Refusal) : exec i s ≠ .refused r := by
  have hw : ∀ x : Result, x ≠ .refused r → whenIdle s x ≠ .refused r := by
    intro x hx
    rcases whenIdle_cases s x with ⟨-, e⟩ | ⟨-, e⟩ <;> rw [e]
    · exact hx
    · simp
  have hd : ∀ v, readToDout s v ≠ .refused r := by intro v; cases v <;> simp [readToDout]
  cases i with
  | nop => simp [exec, execNop]
  | rdstatus => simp [exec, execRdstatus]
  | rdstate idx => exact hw _ (hd _)
  | rdword idx => exact hw _ (hd _)
  | rdv v j => exact hw _ (hd _)
  | compress => exact hw _ (by cases readBlock s.blk <;> simp)
  | vrnd4 a c w g =>
    simp only [exec, execVrnd4]
    split
    · simp
    · exact hw _ (by simp)
  | _ => exact hw _ (by simp)

/-- A command stops only on an unwritten BLK byte: RDWORD and COMPRESS, with PHASE IDLE. -/
theorem exec_eq_fault {i : Instr} {s : State} {f : Fault} (h : exec i s = .fault f) :
    s.phase = .idle ∧ ((∃ idx, i = .rdword idx) ∨ i = .compress) ∧
      ∃ a : ByteIdx, readByte s.blk a.val = none ∧ f = .unwrittenRead (.blk a) := by
  have hw : ∀ x : Result, whenIdle s x = .fault f → s.phase = .idle ∧ x = .fault f := by
    intro x hx
    rcases whenIdle_cases s x with ⟨hi, e⟩ | ⟨-, e⟩ <;> rw [e] at hx
    · exact ⟨hi, hx⟩
    · exact absurd hx (by simp)
  cases i with
  | nop => simp [exec, execNop] at h
  | rdstatus => simp [exec, execRdstatus] at h
  | rdstate idx => exact absurd (hw _ h).2 (by simp [readToDout])
  | rdv v j => exact absurd (hw _ h).2 (by simp [readToDout])
  | rdword idx =>
    obtain ⟨hi, e⟩ := hw _ h
    rcases memRead4_cases s.blk idx with ⟨b0, b1, b2, b3, -, -, -, -, e'⟩ | ⟨k, r, e'⟩
    · rw [e'] at e; exact absurd e (by simp [readToDout])
    · rw [e'] at e
      exact ⟨hi, .inl ⟨idx, rfl⟩, _, r, (Host.Outcome.fault.inj e).symm⟩
  | compress =>
    obtain ⟨hi, e⟩ := hw _ h
    rcases readBlock_cases s.blk with ⟨⟨g, e'⟩, -⟩ | ⟨a, r, e'⟩
    · rw [e'] at e; exact absurd e (by simp)
    · rw [e'] at e
      exact ⟨hi, .inr rfl, a, r, (Host.Outcome.fault.inj e).symm⟩
  | vrnd4 a c w g =>
    simp only [exec, execVrnd4] at h
    split at h
    · exact absurd h (by simp)
    · exact absurd (hw _ h).2 (by simp)
  | _ => exact absurd (hw _ h).2 (by simp)

/-! ### The sequencer and `step` -/

/-- The LOAD step with a fully written block. -/
theorem loadStep_of_holds {s : State} {b : Block} (h : s.HoldsBlock b) :
    loadStep s = .next { s with
      win := #v[blockGroup b 0, blockGroup b 1, blockGroup b 2, blockGroup b 3, s.win[4]]
      abef := ⟨s.hashWord 0, s.hashWord 1, s.hashWord 4, s.hashWord 5⟩
      cdgh := ⟨s.hashWord 2, s.hashWord 3, s.hashWord 6, s.hashWord 7⟩
      grp := 0
      phase := .rounds } := by
  simp only [loadStep, readBlock_of_holds h]

/-- Everything a sequencer turn can do: one constructor per row of 43_compressor.md R170. -/
inductive TurnEffect (s : State) : State → Prop where
  | idle : s.phase = .idle → TurnEffect s s
  | load (b : Block) : s.phase = .load → s.HoldsBlock b → TurnEffect s { s with
      win := #v[blockGroup b 0, blockGroup b 1, blockGroup b 2, blockGroup b 3, s.win[4]]
      abef := ⟨s.hashWord 0, s.hashWord 1, s.hashWord 4, s.hashWord 5⟩
      cdgh := ⟨s.hashWord 2, s.hashWord 3, s.hashWord 6, s.hashWord 7⟩
      grp := 0
      phase := .rounds }
  | rounds (g : GroupIdx) : s.phase = .rounds → s.grp.toNat = g.val → TurnEffect s (roundsStep s g)
  | final : s.phase = .final → TurnEffect s (finalStep s)

/-- The inversion of the sequencer's turn. -/
theorem sequencerTurn_effect {s t : State} (h : sequencerTurn s = .next t) : TurnEffect s t := by
  unfold sequencerTurn at h
  split at h
  · next hp => exact Host.Outcome.next.inj h ▸ .idle hp
  · next hp =>
    rcases readBlock_cases s.blk with ⟨-, hf⟩ | ⟨a, -, e⟩
    · obtain ⟨b, hb⟩ := holdsBlock_of_blkFull (s := s) hf
      rw [loadStep_of_holds hb] at h
      exact Host.Outcome.next.inj h ▸ .load b hp hb
    · simp [loadStep, e] at h
  · next hp =>
    split at h
    · next hg => exact Host.Outcome.next.inj h ▸ .rounds ⟨s.grp.toNat, hg⟩ hp rfl
    · simp at h
  · next hp => exact Host.Outcome.next.inj h ▸ .final hp

/-- Everything one transition can do, by the event at the ports. -/
inductive StepEffect (s : State) : State → Prop where
  /-- The sequencer's turn, because none is pending. -/
  | quiet (t : State) : s.port = [] → TurnEffect s t → StepEffect s t
  /-- The sequencer's turn, as the event. -/
  | turn (rest : List PortEvent) (t : State) : s.port = .sequencerTurn :: rest → TurnEffect (s.setPort rest) t →
      StepEffect s t
  /-- A legal command. -/
  | command (cmd din : Word) (rest : List PortEvent) (i : Instr) (t : State) : s.port = .command cmd din :: rest →
      decode cmd din = .ok i → CommandEffect i (s.setPort rest) t → StepEffect s t
  /-- An illegal word. -/
  | illegal (cmd din : Word) (rest : List PortEvent) (r : IllegalReason) : s.port = .command cmd din :: rest →
      decode cmd din = .error r → StepEffect s ((s.setPort rest).raiseError .illegal)
  /-- A reset. -/
  | reset (rest : List PortEvent) : s.port = .reset :: rest → StepEffect s (State.reset.setPort rest)

/-- The inversion of `step`: a next state is one of the effects above. -/
theorem step_effect {s t : State} (h : step s = .next t) : StepEffect s t := by
  unfold step at h
  split at h
  · next hp => exact .quiet t hp (sequencerTurn_effect h)
  · next e rest hp =>
    cases e with
    | command cmd din =>
      simp only [runEvent, runCommand] at h
      cases hd : decode cmd din with
      | ok i => rw [hd] at h; exact .command cmd din rest i t hp hd (exec_effect h)
      | error r => rw [hd] at h; exact Host.Outcome.next.inj h ▸ .illegal cmd din rest r hp hd
    | sequencerTurn => exact .turn rest t hp (sequencerTurn_effect h)
    | reset => exact Host.Outcome.next.inj h ▸ .reset rest hp

end Sys2Proof.Machine
end

