-- ==== Sys2Proof/Laws/PerInstr.lean ====
section
/-! SUPPORT. A fact stated once per command: its command word matches the command's own row of the opcode map
(30_encoding.md R77). -/

set_option Elab.async false

namespace Sys2Proof.Laws.RowMatch

/-- The command word of the instruction matches the row of the opcode map that has its mnemonic (30_encoding.md R77). -/
def Statement (i : Instr) : Prop := (rowOf i.op).matchesWord (encodeCmd i) = true

theorem nop : Statement (.nop) := rfl

theorem rdstatus : Statement (.rdstatus) := rfl

theorem wrstate (idx : StateIdx) (din : Word) : Statement (.wrstate idx din) := by
  apply matches_of_operandBits
  simp only [operandBits, Instr.op]
  rw [place_and_mask (w := 3) idx.2 (by decide)]

theorem rdstate (idx : StateIdx) : Statement (.rdstate idx) := by
  apply matches_of_operandBits
  simp only [operandBits, Instr.op]
  rw [place_and_mask (w := 3) idx.2 (by decide)]

theorem wrbyte (idx : ByteIdx) (din : Word) : Statement (.wrbyte idx din) := by
  apply matches_of_operandBits
  simp only [operandBits, Instr.op]
  rw [place_and_mask (w := 6) idx.2 (by decide)]

theorem wrword (idx : WordIdx) (din : Word) : Statement (.wrword idx din) := by
  apply matches_of_operandBits
  simp only [operandBits, Instr.op]
  rw [place_and_mask (w := 4) idx.2 (by decide)]

theorem rdword (idx : WordIdx) : Statement (.rdword idx) := by
  apply matches_of_operandBits
  simp only [operandBits, Instr.op]
  rw [place_and_mask (w := 4) idx.2 (by decide)]

theorem wrv (v : VReg) (j : LaneIdx) (din : Word) : Statement (.wrv v j din) := by
  apply matches_of_operandBits
  simp only [operandBits, Instr.op, BitVec.and_or_distrib_right]
  rw [place_and_mask (w := 4) v.2 (by decide)]
  rw [place_and_mask (w := 2) j.2 (by decide)]
  rfl

theorem rdv (v : VReg) (j : LaneIdx) : Statement (.rdv v j) := by
  apply matches_of_operandBits
  simp only [operandBits, Instr.op, BitVec.and_or_distrib_right]
  rw [place_and_mask (w := 4) v.2 (by decide)]
  rw [place_and_mask (w := 2) j.2 (by decide)]
  rfl

theorem compress : Statement (.compress) := rfl

theorem vsrl (vd va : VReg) (n : Shamt) : Statement (.vsrl vd va n) := by
  apply matches_of_operandBits
  simp only [operandBits, Instr.op, BitVec.and_or_distrib_right]
  rw [place_and_mask (w := 4) vd.2 (by decide)]
  rw [place_and_mask (w := 4) va.2 (by decide)]
  rw [place_and_mask (w := 5) n.2 (by decide)]
  rfl

theorem vsll (vd va : VReg) (n : Shamt) : Statement (.vsll vd va n) := by
  apply matches_of_operandBits
  simp only [operandBits, Instr.op, BitVec.and_or_distrib_right]
  rw [place_and_mask (w := 4) vd.2 (by decide)]
  rw [place_and_mask (w := 4) va.2 (by decide)]
  rw [place_and_mask (w := 5) n.2 (by decide)]
  rfl

theorem vor (vd va vb : VReg) : Statement (.vor vd va vb) := by
  apply matches_of_operandBits
  simp only [operandBits, Instr.op, BitVec.and_or_distrib_right]
  rw [place_and_mask (w := 4) vd.2 (by decide)]
  rw [place_and_mask (w := 4) va.2 (by decide)]
  rw [place_and_mask (w := 4) vb.2 (by decide)]
  rfl

theorem vxor (vd va vb : VReg) : Statement (.vxor vd va vb) := by
  apply matches_of_operandBits
  simp only [operandBits, Instr.op, BitVec.and_or_distrib_right]
  rw [place_and_mask (w := 4) vd.2 (by decide)]
  rw [place_and_mask (w := 4) va.2 (by decide)]
  rw [place_and_mask (w := 4) vb.2 (by decide)]
  rfl

theorem vadd (vd va vb : VReg) : Statement (.vadd vd va vb) := by
  apply matches_of_operandBits
  simp only [operandBits, Instr.op, BitVec.and_or_distrib_right]
  rw [place_and_mask (w := 4) vd.2 (by decide)]
  rw [place_and_mask (w := 4) va.2 (by decide)]
  rw [place_and_mask (w := 4) vb.2 (by decide)]
  rfl

theorem valign (vd p n : VReg) : Statement (.valign vd p n) := by
  apply matches_of_operandBits
  simp only [operandBits, Instr.op, BitVec.and_or_distrib_right]
  rw [place_and_mask (w := 4) vd.2 (by decide)]
  rw [place_and_mask (w := 4) p.2 (by decide)]
  rw [place_and_mask (w := 4) n.2 (by decide)]
  rfl

theorem vmsg1 (vd p n : VReg) : Statement (.vmsg1 vd p n) := by
  apply matches_of_operandBits
  simp only [operandBits, Instr.op, BitVec.and_or_distrib_right]
  rw [place_and_mask (w := 4) vd.2 (by decide)]
  rw [place_and_mask (w := 4) p.2 (by decide)]
  rw [place_and_mask (w := 4) n.2 (by decide)]
  rfl

theorem vmsg2 (vd m l : VReg) : Statement (.vmsg2 vd m l) := by
  apply matches_of_operandBits
  simp only [operandBits, Instr.op, BitVec.and_or_distrib_right]
  rw [place_and_mask (w := 4) vd.2 (by decide)]
  rw [place_and_mask (w := 4) m.2 (by decide)]
  rw [place_and_mask (w := 4) l.2 (by decide)]
  rfl

theorem vsched (vd w0 w1 w2 w3 : VReg) : Statement (.vsched vd w0 w1 w2 w3) := by
  apply matches_of_operandBits
  simp only [operandBits, Instr.op, BitVec.and_or_distrib_right]
  rw [place_and_mask (w := 4) vd.2 (by decide)]
  rw [place_and_mask (w := 4) w0.2 (by decide)]
  rw [place_and_mask (w := 4) w1.2 (by decide)]
  rw [place_and_mask (w := 4) w2.2 (by decide)]
  rw [place_and_mask (w := 4) w3.2 (by decide)]
  rfl

theorem vswap (vd va : VReg) : Statement (.vswap vd va) := by
  apply matches_of_operandBits
  simp only [operandBits, Instr.op, BitVec.and_or_distrib_right]
  rw [place_and_mask (w := 4) vd.2 (by decide)]
  rw [place_and_mask (w := 4) va.2 (by decide)]
  rfl

theorem vaddk (vd va : VReg) (g : GroupIdx) : Statement (.vaddk vd va g) := by
  apply matches_of_operandBits
  simp only [operandBits, Instr.op, BitVec.and_or_distrib_right]
  rw [place_and_mask (w := 4) vd.2 (by decide)]
  rw [place_and_mask (w := 4) va.2 (by decide)]
  rw [place_and_mask (w := 4) g.2 (by decide)]
  rfl

theorem vrnd2 (vd c a k : VReg) : Statement (.vrnd2 vd c a k) := by
  apply matches_of_operandBits
  simp only [operandBits, Instr.op, BitVec.and_or_distrib_right]
  rw [place_and_mask (w := 4) vd.2 (by decide)]
  rw [place_and_mask (w := 4) c.2 (by decide)]
  rw [place_and_mask (w := 4) a.2 (by decide)]
  rw [place_and_mask (w := 4) k.2 (by decide)]
  rfl

theorem vrnd4 (a c w : VReg) (g : GroupIdx) : Statement (.vrnd4 a c w g) := by
  apply matches_of_operandBits
  simp only [operandBits, Instr.op, BitVec.and_or_distrib_right]
  rw [place_and_mask (w := 4) a.2 (by decide)]
  rw [place_and_mask (w := 4) c.2 (by decide)]
  rw [place_and_mask (w := 4) w.2 (by decide)]
  rw [place_and_mask (w := 4) g.2 (by decide)]
  rfl

end Sys2Proof.Laws.RowMatch
end

