-- ==== Sys2Proof/Laws/Sequencer.lean ====
section
/-! SUPPORT. The sequencer's steps, field by field, and its turn in each phase (43_compressor.md R170, R173 to R176). -/

namespace Sys2Proof.Machine

variable (s : State)

/-! ### The ROUNDS step -/

@[simp] theorem roundsStep_hash (g : GroupIdx) : (roundsStep s g).hash = s.hash := rfl
@[simp] theorem roundsStep_hashMarks (g : GroupIdx) : (roundsStep s g).hashMarks = s.hashMarks := rfl
@[simp] theorem roundsStep_blk (g : GroupIdx) : (roundsStep s g).blk = s.blk := rfl
@[simp] theorem roundsStep_v (g : GroupIdx) : (roundsStep s g).v = s.v := rfl
@[simp] theorem roundsStep_vMarks (g : GroupIdx) : (roundsStep s g).vMarks = s.vMarks := rfl
@[simp] theorem roundsStep_err (g : GroupIdx) : (roundsStep s g).err = s.err := rfl
@[simp] theorem roundsStep_errCode (g : GroupIdx) : (roundsStep s g).errCode = s.errCode := rfl
@[simp] theorem roundsStep_dout (g : GroupIdx) : (roundsStep s g).dout = s.dout := rfl
@[simp] theorem roundsStep_port (g : GroupIdx) : (roundsStep s g).port = s.port := rfl

/-- The new ABEF and CDGH of a ROUNDS step (43_compressor.md R174). -/
theorem roundsStep_vars (g : GroupIdx) :
    ((roundsStep s g).abef, (roundsStep s g).cdgh) = rounds4 s.abef s.cdgh (roundsInput s g) g := rfl

theorem roundsStep_win (g : GroupIdx) : (roundsStep s g).win = roundsWindow s g (roundsInput s g) := rfl

/-- Before the last group the next phase is ROUNDS, of the next group. -/
theorem roundsStep_of_lt {g : GroupIdx} (h : g.val < 15) :
    (roundsStep s g).phase = .rounds ∧ (roundsStep s g).grp.toNat = g.val + 1 := by
  have hne : g.val ≠ 15 := by omega
  simp only [roundsStep, hne, if_false, BitVec.toNat_ofNat, true_and]
  omega

/-- After the last group the next phase is FINAL, with GRP = 16. -/
theorem roundsStep_of_last {g : GroupIdx} (h : g.val = 15) :
    (roundsStep s g).phase = .final ∧ (roundsStep s g).grp = 16 := by
  simp [roundsStep, h]

/-- The slot of WIN a ROUNDS step of the scheduled phase writes, and the slots it keeps (43_compressor.md R175). -/
theorem winSlot_roundsStep {g : GroupIdx} (h : 4 ≤ g.val) (q : Nat) :
    (roundsStep s g).winSlot q = if q % 5 = g.val % 5 then roundsInput s g else s.winSlot q := by
  have hg : ¬ g.val < Config.directGroups := by simp only [Config.directGroups]; omega
  simp only [State.winSlot, roundsStep_win, roundsWindow, if_neg hg, Vector.getElem_set, eq_comm]

/-- In the direct phase WIN is kept (43_compressor.md R174). -/
theorem win_roundsStep_direct {g : GroupIdx} (h : g.val < 4) : (roundsStep s g).win = s.win := by
  simp only [roundsStep_win, roundsWindow, Config.directGroups, if_pos h]

/-! ### The FINAL step -/

@[simp] theorem finalStep_blk : (finalStep s).blk = s.blk := rfl
@[simp] theorem finalStep_v : (finalStep s).v = s.v := rfl
@[simp] theorem finalStep_vMarks : (finalStep s).vMarks = s.vMarks := rfl
@[simp] theorem finalStep_abef : (finalStep s).abef = s.abef := rfl
@[simp] theorem finalStep_cdgh : (finalStep s).cdgh = s.cdgh := rfl
@[simp] theorem finalStep_win : (finalStep s).win = s.win := rfl
@[simp] theorem finalStep_err : (finalStep s).err = s.err := rfl
@[simp] theorem finalStep_errCode : (finalStep s).errCode = s.errCode := rfl
@[simp] theorem finalStep_dout : (finalStep s).dout = s.dout := rfl
@[simp] theorem finalStep_port : (finalStep s).port = s.port := rfl
@[simp] theorem finalStep_phase : (finalStep s).phase = .idle := rfl
@[simp] theorem finalStep_grp : (finalStep s).grp = 0 := rfl

/-- The FINAL step is the feed-forward of the working variables in ABEF and CDGH (43_compressor.md R176). -/
theorem finalStep_hash : (finalStep s).hash = feedForward s.hash (workVarsOf s.abef s.cdgh) := rfl

/-! ### The turn in each phase -/

theorem sequencerTurn_idle {s : State} (h : s.phase = .idle) : sequencerTurn s = .next s := by simp only [sequencerTurn, h]

theorem sequencerTurn_load {s : State} (h : s.phase = .load) : sequencerTurn s = loadStep s := by
  simp only [sequencerTurn, h]

theorem sequencerTurn_rounds {s : State} (h : s.phase = .rounds) {g : GroupIdx} (hg : s.grp.toNat = g.val) :
    sequencerTurn s = .next (roundsStep s g) := by
  have hlt : s.grp.toNat < 16 := by omega
  simp only [sequencerTurn, h, hlt, dif_pos]
  congr

theorem sequencerTurn_final {s : State} (h : s.phase = .final) : sequencerTurn s = .next (finalStep s) := by
  simp only [sequencerTurn, h]

/-- With nothing to come a transition is the sequencer's turn (43_compressor.md R172). -/
theorem step_of_quiet {s : State} (h : s.port = []) : step s = sequencerTurn s := by simp only [step, h]

/-- A sequencer turn as the event to come. -/
theorem step_of_turn {s : State} {rest : List PortEvent} (h : s.port = .sequencerTurn :: rest) :
    step s = sequencerTurn (s.setPort rest) := by simp only [step, h, runEvent]

/-- A command as the event to come. -/
theorem step_of_command {s : State} {cmd din : Word} {rest : List PortEvent} (h : s.port = .command cmd din :: rest) :
    step s = runCommand cmd din (s.setPort rest) := by simp only [step, h, runEvent]

/-! ### Runs -/

theorem runSteps_succ {k : Nat} {s t : State} (h : step s = .next t) : runSteps (k + 1) s = runSteps k t := by
  simp only [runSteps, h]

theorem runSteps_add {j k : Nat} {s t : State} (h : runSteps j s = .next t) : runSteps (j + k) s = runSteps k t := by
  induction j generalizing s with
  | zero => simp only [runSteps, Host.Outcome.next.injEq] at h; subst h; simp
  | succ j ih =>
    simp only [runSteps] at h
    cases hs : step s with
    | next u =>
      rw [hs] at h
      rw [show j + 1 + k = j + k + 1 by omega, runSteps_succ hs]
      exact ih h
    | fault f => rw [hs] at h; cases h
    | refused r => rw [hs] at h; cases h

end Sys2Proof.Machine
end

