-- ==== Sys2Proof/Tests/Slice0.lean ====
section
/-! SUPPORT. The model's own tests. Expected values are the spec's: the examples of 30_encoding.md R81 and the vectors of
95_test_vectors.md (V-L, V-S, V-R, V-C, V-H, V-E), named in each test. The last part shows, for every obligation with
hypotheses, a concrete case that meets them. -/

set_option Elab.async false

namespace Sys2Proof.Tests

open Machine Claims

/-! ### Helpers -/

/-- The command completes and the state after has the property. -/
def after (i : Instr) (s : State) (p : State → Bool) : Bool :=
  match exec i s with
  | .next t => p t
  | .fault _ => false
  | .refused _ => false

/-- The sequencer's turn completes and the state after has the property. -/
def afterTurn (s : State) (p : State → Bool) : Bool :=
  match sequencerTurn s with
  | .next t => p t
  | .fault _ => false
  | .refused _ => false

/-- The transition completes and the state after has the property. -/
def afterStep (s : State) (p : State → Bool) : Bool :=
  match step s with
  | .next t => p t
  | .fault _ => false
  | .refused _ => false

/-- The answer is the model-only fault on this cell. -/
def stopsOn (r : Result) (c : StateCell) : Bool :=
  match r with
  | .next _ => false
  | .fault f => f == .unwrittenRead c
  | .refused _ => false

/-- After reset, registers V0, V1, .. hold the groups of the list. -/
def withGroups (gs : List LaneGroup) : State :=
  (gs.zip (List.finRange 16)).foldl (fun s p => s.writeV p.2 p.1) State.reset

/-- The initial hash value of 95_test_vectors.md. -/
def iv : Vector Word 8 :=
  #v[0x6a09e667, 0xbb67ae85, 0x3c6ef372, 0xa54ff53a, 0x510e527f, 0x9b05688c, 0x1f83d9ab, 0x5be0cd19]

/-- The 64 zero bytes. -/
def zeroBytes : List Host.Cell := (List.range 64).map fun a => (a, 0)

/-- A block as bytes: 64 zeroes. -/
def zeroBlock : Block := fun _ => 0

/-- Everything written: STATE = IV, BLK = 64 zero bytes, every lane of V = 1; PHASE IDLE. -/
def full : State :=
  { State.reset with
    hash := iv
    hashMarks := Vector.replicate 8 true
    blk := zeroBytes
    v := Vector.replicate 16 ⟨1, 1, 1, 1⟩
    vMarks := Vector.replicate 16 ⟨true, true, true, true⟩ }

/-- `full` with a compression running. -/
def running (p : Phase) (g : BitVec 5) : State := { full with phase := p, grp := g }

def ffff : LaneGroup := ⟨0xffffffff, 0xffffffff, 0xffffffff, 0xffffffff⟩
def la : LaneGroup := ⟨0x80000001, 0xffffffff, 0x12345678, 0x00000000⟩
def lb : LaneGroup := ⟨0x00000001, 0x00000001, 0xedcba988, 0xffffffff⟩
def abefIv : LaneGroup := ⟨0x6a09e667, 0xbb67ae85, 0x510e527f, 0x9b05688c⟩
def cdghIv : LaneGroup := ⟨0x3c6ef372, 0xa54ff53a, 0x1f83d9ab, 0x5be0cd19⟩
def seq0 : LaneGroup := ⟨0x0c0d0e0f, 0x08090a0b, 0x04050607, 0x00010203⟩
def seq1 : LaneGroup := ⟨0x1c1d1e1f, 0x18191a1b, 0x14151617, 0x10111213⟩
def seq2 : LaneGroup := ⟨0x2c2d2e2f, 0x28292a2b, 0x24252627, 0x20212223⟩
def seq3 : LaneGroup := ⟨0x3c3d3e3f, 0x38393a3b, 0x34353637, 0x30313233⟩
def abc0 : LaneGroup := ⟨0, 0, 0, 0x61626380⟩
def abc3 : LaneGroup := ⟨0x00000018, 0, 0, 0⟩
def vr2 : LaneGroup := ⟨0xe9b5dba5, 0xb5c0fbcf, 0x71374491, 0xa3ec9318⟩

/-! ### WellFormed: its one check -/

theorem test_wf_refuses_vrnd4_same_register : (Instr.vrnd4 1 1 0 0).wf = false := rfl

theorem test_wf_accepts_vrnd4_two_registers : (Instr.vrnd4 13 12 0 0).wf = true := rfl

/-! ### Decode: the words of 30_encoding.md R81, one per command -/

theorem test_decode_host : decode 0x00000000 0 = .ok .nop ∧ decode 0x01000000 0 = .ok .rdstatus ∧
    decode 0x02000003 0xa54ff53a = .ok (.wrstate 3 0xa54ff53a) ∧ decode 0x03000007 0 = .ok (.rdstate 7) ∧
    decode 0x0400003F 0x18 = .ok (.wrbyte 63 0x18) ∧ decode 0x0500000F 0x18 = .ok (.wrword 15 0x18) ∧
    decode 0x06000002 0 = .ok (.rdword 2) ∧ decode 0x07500003 0x61626380 = .ok (.wrv 5 3 0x61626380) ∧
    decode 0x08500002 0 = .ok (.rdv 5 2) ∧ decode 0x10000000 0 = .ok .compress := by decide +kernel

theorem test_decode_lane_group : decode 0x20100007 0 = .ok (.vsrl 1 0 7) ∧ decode 0x21200019 0 = .ok (.vsll 2 0 25) ∧
    decode 0x22312000 0 = .ok (.vor 3 1 2) ∧ decode 0x23433000 0 = .ok (.vxor 4 3 3) ∧
    decode 0x24501000 0 = .ok (.vadd 5 0 1) := by decide +kernel

theorem test_decode_schedule : decode 0x30601000 0 = .ok (.valign 6 0 1) ∧ decode 0x31701000 0 = .ok (.vmsg1 7 0 1) ∧
    decode 0x32873000 0 = .ok (.vmsg2 8 7 3) ∧ decode 0x33401230 0 = .ok (.vsched 4 0 1 2 3) := by decide +kernel

theorem test_decode_round : decode 0x40950000 0 = .ok (.vswap 9 5) ∧ decode 0x41A00000 0 = .ok (.vaddk 10 0 0) ∧
    decode 0x42BCDA00 0 = .ok (.vrnd2 11 12 13 10) ∧ decode 0x43DC0000 0 = .ok (.vrnd4 13 12 0 0) ∧
    decode 0x43DC000A 0 = .ok (.vrnd4 13 12 0 10) := by decide +kernel

/-- V-E1 to V-E4: an unmapped opcode, a must-be-0 bit, VRND4 with `vd = va`, VOR with `imm4 ≠ 0`. -/
theorem test_decode_illegal : decode 0xFF000000 0 = .error .reservedOpcode ∧ decode 0x02000008 0 = .error .mustBeZeroBit ∧
    decode 0x43110000 0 = .error .vrnd4SameRegister ∧ decode 0x22000001 0 = .error .mustBeZeroBit := by decide +kernel

theorem test_encode_words : encode (.vsched 4 0 1 2 3) = (0x33401230, 0) ∧ encode (.wrv 5 3 0x61626380) = (0x07500003, 0x61626380) ∧
    encode (.vsll 2 0 25) = (0x21200019, 0) ∧ encode (.vrnd4 13 12 0 10) = (0x43DC000A, 0) := by decide +kernel

theorem test_table_word : decodeTableWord 32 0x07500003 = some (.wrv 5 3 0) ∧
    decodeTableWord 64 0x6162638007500003 = some (.wrv 5 3 0x61626380) ∧ decodeTableWord 32 0x09000000 = none := by
  decide +kernel

/-- R81: the text of a command. -/
theorem test_asm_text : asmText (.vsched 4 0 1 2 3) = "VSCHED V4, V0, V1, V2, V3" ∧
    asmText (.wrstate 3 0xa54ff53a) = "WRSTATE 3, 0xa54ff53a" ∧ asmText .nop = "NOP" := by decide +kernel

/-! ### Reset, fetching -/

theorem test_reset_memory_wf : blkWf State.reset.blk := by decide

/-- V-H1: STATUS after reset. -/
theorem test_rdstatus_reset : after .rdstatus State.reset (fun t => t.dout == 0) = true := by decide +kernel

/-- `withFetchWord` makes the very next transition the command: R81's WRSTATE word. -/
theorem test_with_fetch_word :
    afterStep (State.reset.withFetchWord 64 0xa54ff53a02000003) (fun t => t.hashWord 3 == 0xa54ff53a) = true := by
  decide +kernel

/-! ### Host commands -/

theorem test_nop : after .nop full (fun t => t == full) = true := by decide +kernel

/-- R203. -/
theorem test_wrstate : after (.wrstate 7 5) full (fun t => t.hashWord 7 == 5 && t.hashWord 6 == 0x1f83d9ab) = true := by
  decide +kernel

theorem test_rdstate : after (.rdstate 3) full (fun t => t.dout == 0xa54ff53a) = true := by decide +kernel

/-- V-H4: only `din[7:0]` is stored. -/
theorem test_wrbyte : after (.wrbyte 5 0xffffff7a) State.reset (fun t => readByte t.blk 5 == some 0x7a) = true := by
  decide +kernel

/-- V-H2: the least significant byte lies at the highest address. -/
theorem test_wrword : after (.wrword 15 0x00000018) State.reset
    (fun t => readByte t.blk 63 == some 0x18 && readByte t.blk 60 == some 0) = true := by decide +kernel

/-- V-H3: the byte at the lowest address is the most significant. -/
theorem test_rdword : after (.rdword 0) (State.reset.setBlk [(0, 0x61), (1, 0x62), (2, 0x63), (3, 0x80)])
    (fun t => t.dout == 0x61626380) = true := by decide +kernel

/-- R264: an unwritten byte stops RDWORD. -/
theorem test_rdword_unwritten :
    stopsOn (exec (.rdword 0) (State.reset.setBlk [(0, 0x61), (1, 0x62), (3, 0x80)])) (.blk 2) = true := by decide +kernel

/-- V-H5. -/
theorem test_wrv : after (.wrv 5 3 0x61626380) State.reset
    (fun t => t.vGroup 5 == ⟨0, 0, 0, 0x61626380⟩ && !t.cellWritten (.lane 5 2)) = true := by decide +kernel

theorem test_rdv : after (.rdv 1 2) (withGroups [seq0, seq1]) (fun t => t.dout == 0x14151617) = true := by decide +kernel

/-! ### Errors -/

/-- V-E1: STATUS after an unmapped word. -/
theorem test_illegal_status : afterStep (State.reset.setPort [.command 0xFF000000 0]) (fun t => t.status == 0x12) = true := by
  decide +kernel

/-- V-E5: WRSTATE while a compression runs. -/
theorem test_busy : after (.wrstate 0 1) (running .load 0) (fun t => t.status == 0x123 && t.hashWord 0 == 0x6a09e667) = true := by
  decide +kernel

/-- V-E6: an illegal word while busy is ILLEGAL, and the first code sticks. -/
theorem test_illegal_while_busy :
    afterStep { running .load 0 with err := true, errCode := 2, port := [.command 0xFF000000 0] }
      (fun t => t.errCode == 2 && t.err) = true := by decide +kernel

/-- V-E7, V-E8: the checked machine stops on the first unwritten cell. -/
theorem test_unwritten : stopsOn (checkedExec (.rdstate 0) State.reset) (.hash 0) = true ∧
    stopsOn (checkedExec .compress (full.setBlk [])) (.blk 0) = true := by decide +kernel

/-- V-E9, V-E10: lanes 0 and 1 of `wk` are not read. -/
theorem test_vrnd2_reads : stopsOn (checkedExec (.vrnd2 1 2 3 0) (State.reset.writeLane 0 0 1)) (.lane 2 0) = true ∧
    firstUnwritten (.vrnd2 3 1 2 0) ((((State.reset.writeLane 0 2 1).writeLane 0 3 1).writeV 1 la).writeV 2 lb) = none := by
  decide +kernel

/-! ### Lane-group arithmetic (V-L1 to V-L11) -/

theorem test_vsrl : after (.vsrl 1 0 7) (withGroups [la])
    (fun t => t.vGroup 1 == ⟨0x01000000, 0x01ffffff, 0x002468ac, 0⟩) = true := by decide +kernel

theorem test_vsrl_31 : after (.vsrl 0 0 31) (withGroups [la]) (fun t => t.vGroup 0 == ⟨1, 1, 0, 0⟩) = true := by decide +kernel

theorem test_vsll : after (.vsll 1 0 25) (withGroups [la])
    (fun t => t.vGroup 1 == ⟨0x02000000, 0xfe000000, 0xf0000000, 0⟩) = true := by decide +kernel

theorem test_vor : after (.vor 2 0 1) (withGroups [la, lb])
    (fun t => t.vGroup 2 == ⟨0x80000001, 0xffffffff, 0xfffffff8, 0xffffffff⟩) = true := by decide +kernel

theorem test_vxor : after (.vxor 0 0 1) (withGroups [la, lb])
    (fun t => t.vGroup 0 == ⟨0x80000000, 0xfffffffe, 0xfffffff0, 0xffffffff⟩) = true := by decide +kernel

theorem test_vadd : after (.vadd 1 0 1) (withGroups [la, lb])
    (fun t => t.vGroup 1 == ⟨0x80000002, 0, 0, 0xffffffff⟩) = true := by decide +kernel

/-- V-L12. -/
theorem test_rotate : rotateRightLanes la 7 = ⟨0x03000000, 0xffffffff, 0xf02468ac, 0⟩ := by decide +kernel

/-! ### Message schedule (V-S1 to V-S5) -/

theorem test_valign : after (.valign 0 0 1) (withGroups [seq0, seq1])
    (fun t => t.vGroup 0 == ⟨0x10111213, 0x0c0d0e0f, 0x08090a0b, 0x04050607⟩) = true := by decide +kernel

theorem test_vmsg1 : after (.vmsg1 2 0 1) (withGroups [seq0, seq1])
    (fun t => t.vGroup 2 == ⟨0x6cb3d271, 0x642382e9, 0x5998f75e, 0x4f0a6dd0⟩) = true := by decide +kernel

theorem test_vmsg2 : after (.vmsg2 2 0 1) (withGroups [⟨0x9ce504a4, 0x9050b118, 0x81c22189, 0x732f93f7⟩, seq3])
    (fun t => t.vGroup 2 == ⟨0x9bef911d, 0x65d5a368, 0xba99985f, 0x2d84894c⟩) = true := by decide +kernel

theorem test_vsched : after (.vsched 4 0 1 2 3) (withGroups [seq0, seq1, seq2, seq3])
    (fun t => t.vGroup 4 == ⟨0x9bef911d, 0x65d5a368, 0xba99985f, 0x2d84894c⟩) = true := by decide +kernel

/-- V-S5d. -/
theorem test_vsched_wrap : after (.vsched 0 0 1 2 3) (withGroups [ffff, ffff, ffff, ffff])
    (fun t => t.vGroup 0 == ⟨0x20099be4, 0x20099be4, 0x203ffffc, 0x203ffffc⟩) = true := by decide +kernel

/-! ### Round pair (V-R1 to V-R5) -/

theorem test_vswap : after (.vswap 0 0) (withGroups [⟨1, 2, 3, 4⟩]) (fun t => t.vGroup 0 == ⟨3, 4, 1, 2⟩) = true := by
  decide +kernel

theorem test_vaddk : after (.vaddk 1 0 0) (withGroups [abc0]) (fun t => t.vGroup 1 == vr2) = true := by decide +kernel

/-- V-R2b. -/
theorem test_vaddk_15 : after (.vaddk 1 0 15) (withGroups [ffff])
    (fun t => t.vGroup 1 == ⟨0xc67178f1, 0xbef9a3f6, 0xa4506cea, 0x90befff9⟩) = true := by decide +kernel

theorem test_vrnd2 : after (.vrnd2 0 0 1 2) (withGroups [cdghIv, abefIv, vr2])
    (fun t => t.vGroup 0 == ⟨0x5a6ad9ad, 0x5d6aebcd, 0x78ce7989, 0xfa2a4622⟩) = true := by decide +kernel

theorem test_vrnd4 : after (.vrnd4 1 0 2 0) (withGroups [cdghIv, abefIv, abc0])
    (fun t => t.vGroup 1 == ⟨0xd550f666, 0xc8c347a7, 0x24e00850, 0xf92939eb⟩ &&
      t.vGroup 0 == ⟨0x5a6ad9ad, 0x5d6aebcd, 0x78ce7989, 0xfa2a4622⟩) = true := by decide +kernel

/-- R82: VROTR by 7 is V-L12. -/
theorem test_vrotr : (match runCommands (expandPseudo (.vrotr 1 0 7 2)) (withGroups [la]) with
    | .next t => t.vGroup 1 == ⟨0x03000000, 0xffffffff, 0xf02468ac, 0⟩
    | .fault _ => false
    | .refused _ => false) = true := by decide +kernel

/-! ### Compressor (V-C8, V-C9) -/

/-- STATUS after COMPRESS. -/
theorem test_compress : after .compress full (fun t => t.status == 0x101 && t.hash == iv) = true := by decide +kernel

/-- The LOAD step of B_seq and its STATUS. -/
theorem test_load_step :
    afterTurn { running .load 0 with blk := (List.range 64).map fun a => (a, BitVec.ofNat 8 a) }
      (fun t => t.status == 0x201 && t.winSlot 1 == seq1 && t.winSlot 3 == seq3 && t.abef == abefIv && t.cdgh == cdghIv) =
      true := by decide +kernel

/-- Row 4 of V-C8: the first group whose schedule words are computed. -/
theorem test_rounds_step_4 :
    afterTurn { running .rounds 4 with
        win := #v[abc0, zeroGroup, zeroGroup, abc3, zeroGroup]
        abef := ⟨0xb0fa238e, 0xc0645fde, 0x07590dcd, 0x0b92f20c⟩
        cdgh := ⟨0xd932eb16, 0x87912990, 0x745a48de, 0x1e578218⟩ }
      (fun t => t.winSlot 4 == ⟨0x600003c6, 0x7da86405, 0x000f0000, 0x61626380⟩ &&
        t.abef == ⟨0xe1f20c33, 0xfe777bbf, 0xb0638179, 0xcc899961⟩ &&
        t.cdgh == ⟨0xc2fbd9d1, 0x21da9a9b, 0x846ee454, 0x8034229c⟩ && t.status == 0x5201) = true := by decide +kernel

/-- Row 15 of V-C8: the last group, whose step leads to FINAL. -/
theorem test_rounds_step_15 :
    afterTurn { running .rounds 15 with
        win := #v[⟨0xb20f7a99, 0x1487472c, 0xc21462bc, 0x84badedd⟩, ⟨0x065c43da, 0x7a290d5d, 0x840abf27, 0x0c4763f2⟩,
          ⟨0xa9993667, 0xb9e66c34, 0xcc7617db, 0xfb3e89cb⟩, ⟨0xb20f7a99, 0x1487472c, 0xc21462bc, 0x84badedd⟩,
          ⟨0x78bc8d4b, 0x9fe3095e, 0xebe6b238, 0xef57b9cd⟩]
        abef := ⟨0xb6ae8fff, 0xffb70472, 0xb21bad3d, 0x6d83bfc6⟩
        cdgh := ⟨0xc062d46f, 0xfcd1887b, 0x7e44008e, 0x9b5e906c⟩ }
      (fun t => t.winSlot 15 == ⟨0x12b1edeb, 0xeeaba2cc, 0x668b2ff8, 0xa43fcf15⟩ &&
        t.abef == ⟨0x506e3058, 0xd39a2165, 0x5ef50f24, 0xfb121210⟩ && t.status == 0x10301) = true := by decide +kernel

/-- The FINAL step of V-C2. -/
theorem test_final_step :
    afterTurn { running .final 16 with
        abef := ⟨0x506e3058, 0xd39a2165, 0x5ef50f24, 0xfb121210⟩
        cdgh := ⟨0x04d24d6c, 0xb85e2ce9, 0x948d25b6, 0x961f4894⟩ }
      (fun t => t.hash == #v[0xba7816bf, 0x8f01cfea, 0x414140de, 0x5dae2223, 0xb00361a3, 0x96177a9c, 0xb410ff61, 0xf20015ad] &&
        t.status == 0) = true := by decide +kernel

/-! ### Witnesses: a case that meets all hypotheses of each obligation that has some

`full` is idle with everything written, `State.reset` is idle with nothing written, `running p g` is `full` with a compression
running. -/

theorem full_all_written (c : StateCell) : full.cellWritten c = true := by
  cases c with
  | hash i => revert i; decide +kernel
  | blk a => revert a; decide +kernel
  | lane r j => revert r j; decide +kernel

theorem full_holds_zero : full.HoldsBlock zeroBlock := by unfold State.HoldsBlock; decide +kernel

theorem full_blkLegal : full.BlkLegal := by unfold State.BlkLegal; decide +kernel

/-- A running compression in a legal state, in each phase at the ends of GRP's range. -/
theorem running_legal : (running .load 0).Legal ∧ (running .rounds 0).Legal ∧ (running .rounds 15).Legal ∧
    (running .final 16).Legal := by
  have hf : full.BlkFull := fun a => full_all_written (.blk a)
  exact ⟨⟨rfl, .inl ⟨rfl, rfl⟩, full_blkLegal, fun _ => hf⟩, ⟨by simp [State.SequencerLegal, running], .inl ⟨rfl, rfl⟩,
    full_blkLegal, fun _ => hf⟩, ⟨by simp [State.SequencerLegal, running], .inl ⟨rfl, rfl⟩, full_blkLegal, fun _ => hf⟩,
    ⟨rfl, .inl ⟨rfl, rfl⟩, full_blkLegal, fun _ => hf⟩⟩

/-- The three situations every command's rule speaks of: idle and written, idle and unwritten, busy. For the statements about
one command that reads the cells `reads`. -/
theorem witness_command_rules (reads : List StateCell) (r : VReg) (j : LaneIdx) :
    (full.phase = .idle ∧ AllWritten reads full) ∧
    (State.reset.phase = .idle ∧ ∀ c ∈ [StateCell.lane r j], State.reset.cellWritten c = false) ∧
    (running .final 16).phase ≠ .idle :=
  ⟨⟨rfl, fun c _ => full_all_written c⟩, ⟨rfl, by revert r j; decide +kernel⟩, by decide⟩

/-- With nothing written no list of cells is all written, but the empty one. -/
theorem reset_not_all_written (c : StateCell) (cs : List StateCell) : ¬ AllWritten (c :: cs) State.reset := by
  intro h
  have hc := h c (List.mem_cons_self ..)
  clear h
  revert hc
  cases c with
  | hash i => revert i; decide +kernel
  | blk a => simp [State.cellWritten, State.reset, readByte]
  | lane r j => revert r j; decide +kernel

theorem witness_DecodeAfterEncodeIsIdentity :
    (Instr.vrnd4 15 14 15 15).wf = true ∧ (Instr.wrbyte 63 0xffffffff).wf = true := ⟨rfl, rfl⟩

theorem witness_LegalWordHasOneEncoding : decode 0x43FEF00F 7 = .ok (.vrnd4 15 14 15 15) ∧
    decode 0x07F00003 7 = .ok (.wrv 15 3 7) ∧ (Instr.wrv 15 3 7).isWrite = true := by decide +kernel

/-- The ends of each reserved range, and the mapped opcodes beside them. -/
theorem witness_WordIsLegalWhenOneRowMatches :
    ([0x09000000, 0x0F000000, 0x11000000, 0x1F000000, 0x25000000, 0x2F000000, 0x34000000, 0x3F000000, 0x44000000,
      0xFF000000].all fun cmd => decide (decode cmd 0 = .error .reservedOpcode)) = true ∧
    ([0x08000000, 0x10000000, 0x20000000, 0x24000000, 0x30000000, 0x33000000, 0x40000000, 0x43010000].all
      fun cmd => (decode cmd 0).toOption.isSome) = true ∧
    (0x10000000 : Word) &&& 0xFFFFFFFF = 0x10000000 := by decide +kernel

theorem witness_DataWordBitsThatAreIgnored :
    (0x43DC0000 : Word).extractLsb' 24 8 ∉ [0x02#8, 0x04#8, 0x05#8, 0x07#8] ∧
    (0x00000018 : Word).extractLsb' 0 8 = (0xFFFFFF18 : Word).extractLsb' 0 8 := by decide +kernel

theorem witness_StepRunsTheDecodedCommand :
    (full.setPort [.command 0x43DC0000 0]).port = .command 0x43DC0000 0 :: [] ∧
    decode 0x43DC0000 0 = .ok (.vrnd4 13 12 0 0) := ⟨rfl, by decide +kernel⟩

theorem witness_IllegalWordRaisesIllegal :
    ((running .load 0).setPort [.command 0xFF000000 0]).port = .command 0xFF000000 0 :: [] ∧
    decode 0xFF000000 0 = .error .reservedOpcode := ⟨rfl, by decide +kernel⟩

theorem witness_RaiseErrorRecordsFirstCode : full.err = false ∧ (full.raiseError .busy).err = true := ⟨rfl, rfl⟩

theorem witness_BusyBlockRefusesCommands : (Instr.vrnd4 13 12 0 0).wf = true ∧ Instr.vrnd4 13 12 0 0 ≠ .nop ∧
    Instr.vrnd4 13 12 0 0 ≠ .rdstatus ∧ (running .load 0).phase ≠ .idle := by decide

theorem witness_ErrorsAreSticky :
    (let s := (full.raiseError .busy).setPort [.command 0xFF000000 0]
     afterStep s (fun t => t.err) = true ∧ ¬ NextReset s ∧ s.err = true) := by
  refine ⟨by decide +kernel, ?_, rfl⟩
  rintro ⟨rest, h⟩
  cases h

theorem witness_ResetValues : ((running .rounds 7).setPort [.reset]).port = .reset :: [] := rfl

theorem witness_WrstateWritesOneWord : full.phase = .idle ∧ (1 : StateIdx) ≠ 0 := by decide

theorem witness_RdstateReadsOneWord (idx : StateIdx) :
    AllWritten [.hash idx] full ∧ ¬ AllWritten [.hash idx] State.reset :=
  ⟨fun c _ => full_all_written c, reset_not_all_written _ _⟩

theorem witness_WrbyteStoresOneByte : full.phase = .idle ∧ (running .load 0).phase ≠ .idle := by decide

theorem witness_WrwordStoresBigEndian : full.phase = .idle ∧ (byteAddr 15 3).val = 63 := by decide

/-- The lowest and the highest word, written; and a word with an unwritten byte. -/
theorem witness_RdwordReadsBigEndian : full.phase = .idle ∧ readByte full.blk 0 = some 0 ∧ readByte full.blk 1 = some 0 ∧
    readByte full.blk 2 = some 0 ∧ readByte full.blk 3 = some 0 ∧ readByte full.blk 60 = some 0 ∧
    readByte full.blk 63 = some 0 ∧ ¬ AllWritten ((bytesOfWord 15).map .blk) State.reset :=
  ⟨rfl, rfl, rfl, rfl, rfl, by decide +kernel, by decide +kernel, reset_not_all_written _ _⟩

theorem witness_WrvWritesOneLane : full.phase = .idle ∧ ¬ ((0 : VReg) = 0 ∧ (1 : LaneIdx) = 0) := by decide

theorem witness_RdvReadsOneLane (v : VReg) (j : LaneIdx) :
    AllWritten [.lane v j] full ∧ ¬ AllWritten [.lane v j] State.reset :=
  ⟨fun c _ => full_all_written c, reset_not_all_written _ _⟩

/-- `Except` answers the value. -/
theorem witness_ByteAndWordViewsAgree : full.phase = .idle ∧ (memRead4 full.blk 0).toOption = some 0 ∧
    (memRead4 full.blk 15).toOption = some 0 ∧ (3 : Fin 4) ≠ 0 := by decide +kernel

theorem witness_HostAccessIsIdempotent : destinations (.wrword 15 7) = [] ∧ Instr.wrword 15 7 ≠ .compress ∧ full.BlkLegal ∧
    after (.wrword 15 7) full (fun _ => true) = true := ⟨rfl, by decide, full_blkLegal, by decide +kernel⟩

/-- The datapath rules: a register's lanes, all written and all unwritten. For ShiftsMoveEachLane, BitwiseCommandsCombineLanes,
VaddAddsLanesModulo, ValignRealignsGroups, Vmsg1AddsSigma0, Vmsg2ChainsSigma1, VschedComputesNextGroup, VswapExchangesHalves,
VaddkAddsRoundConstants and Vrnd2RunsTwoRounds. -/
theorem witness_DatapathRule (r : VReg) : full.phase = .idle ∧ AllWritten (lanesOf r) full ∧
    ¬ AllWritten (lanesOf r) State.reset ∧ (running .rounds 15).phase ≠ .idle :=
  ⟨rfl, fun c _ => full_all_written c, reset_not_all_written _ _, by decide⟩

theorem witness_RotationFromPrimitives : (1 ≤ 1 ∧ 1 ≤ 31) ∧ (1 ≤ 31 ∧ 31 ≤ 31) := by decide

/-- The first computed schedule word, and the last group the law gives. -/
theorem witness_ScheduleLaw : 16 ≤ 16 ∧ 11 ≤ 11 ∧ scheduleWord zeroBlock 16 = 0 := by decide +kernel

theorem witness_Vrnd4RunsFourRounds : (13 : VReg) ≠ 12 ∧
    AllWritten (lanesOf 13 ++ lanesOf 12 ++ lanesOf 0) full ∧ (1 : VReg) = 1 :=
  ⟨by decide, fun c _ => full_all_written c, rfl⟩

theorem witness_CompressStartsTheSequencer : full.phase = .idle ∧ (∀ i, full.cellWritten (.hash i) = true) ∧
    (∀ a, full.cellWritten (.blk a) = true) ∧ State.reset.cellWritten (.hash 7) = false ∧
    (full.setBlk []).cellWritten (.blk 63) = false :=
  ⟨rfl, fun _ => full_all_written _, fun _ => full_all_written _, by decide, by decide⟩

theorem witness_LoadStepLoadsBlockAndState : (running .load 0).phase = .load ∧ (running .load 0).HoldsBlock zeroBlock :=
  ⟨rfl, full_holds_zero⟩

/-- Group 0, the last direct, the first and the last computed group. -/
theorem witness_RoundsStepRunsOneGroup : ∀ g ∈ [(0 : GroupIdx), 3, 4, 14, 15],
    (running .rounds (BitVec.ofNat 5 g)).phase = .rounds ∧ (running .rounds (BitVec.ofNat 5 g)).grp.toNat = g.val := by decide

theorem witness_FinalStepFeedsForward : (running .final 16).phase = .final := rfl

theorem witness_CompressionTakesEighteenSteps :
    ((running .load 0).phase = .load ∧ (running .load 0).HoldsBlock zeroBlock ∧ (running .load 0).port = []) ∧
    (running .rounds 15).Legal ∧ (running .rounds 15).port = [] :=
  ⟨⟨rfl, full_holds_zero, rfl⟩, running_legal.2.2.1, rfl⟩

/-- Groups 0 and 15, and the slots at the ends of the range. -/
theorem witness_WindowHoldsScheduleGroups :
    (running .load 0).phase = .load ∧ (running .load 0).HoldsBlock zeroBlock ∧ (running .load 0).port = [] ∧
    (0 < 16 ∧ 0 - 5 ≤ 3 ∧ 3 ≤ max 3 (0 - 1)) ∧ 15 < 16 ∧ 15 - 5 ≤ 10 ∧ 14 ≤ max 3 (15 - 1) :=
  ⟨rfl, full_holds_zero, rfl, by decide, by decide, by decide, by decide⟩

theorem witness_CompressionComputesCompressBlock :
    (let s := full.setPort (.command 0x10000000 0 :: (List.replicate 18 .sequencerTurn ++ []))
     s.phase = .idle ∧ s.HoldsBlock zeroBlock) := ⟨rfl, full_holds_zero⟩

/-- Two commands, one legal and one not, among the turns. -/
theorem witness_InterleavingCannotChangeTheResult :
    (let es : List PortEvent := .command 0x02000000 1 :: List.replicate 17 .sequencerTurn ++ [.command 0xFF000000 0]
     let s := (running .load 0).setPort (es ++ [.sequencerTurn])
     s.phase = .load ∧ s.HoldsBlock zeroBlock ∧ (∀ e ∈ es, e ≠ .reset) ∧ es.count .sequencerTurn = 17) :=
  ⟨rfl, full_holds_zero, by decide, by decide⟩

theorem witness_HashBlocksChainThroughState : full.phase = .idle ∧ State.reset.phase = .idle := ⟨rfl, rfl⟩

theorem witness_PseudoInstructionsCompute : full.phase = .idle ∧ 1 ≤ (1 : Shamt).val ∧ 1 ≤ (31 : Shamt).val ∧
    (2 : VReg) ≠ 0 ∧ (2 : VReg) ≠ 1 ∧ (running .load 0).Legal :=
  ⟨rfl, by decide, by decide, by decide, by decide, running_legal.1⟩

/-- Each kind of state does change, in a transition that is no reset: STATE, BLK, V, ABEF, WIN, PHASE, ERR, DOUT. -/
theorem witness_AccessMatrixOfWrites :
    afterStep (full.setPort [.command 0x02000007 5]) (fun t => t.hashWord 7 != full.hashWord 7) = true ∧
    afterStep (running .final 16) (fun t => t.phase != .final) = true ∧
    afterStep (full.setPort [.command 0x0500000F 5]) (fun t => readByte t.blk 63 != readByte full.blk 63) = true ∧
    afterStep (full.setPort [.command 0x24F00000 0]) (fun t => t.vLane 15 3 != full.vLane 15 3) = true ∧
    afterStep (running .load 0) (fun t => t.abef != full.abef && t.phase != .load) = true ∧
    afterStep (running .rounds 15) (fun t => t.grp != 15) = true ∧
    afterStep (full.setPort [.command 0xFF000000 0]) (fun t => t.err != full.err) = true ∧
    afterStep (full.setPort [.command 0x03000007 0]) (fun t => t.dout != full.dout) = true ∧
    ¬ NextReset (full.setPort [.command 0x03000007 0]) := by
  refine ⟨?_, ?_, ?_, ?_, ?_, ?_, ?_, ?_, ?_⟩
  · decide +kernel
  · decide +kernel
  · decide +kernel
  · decide +kernel
  · decide +kernel
  · decide +kernel
  · decide +kernel
  · decide +kernel
  · rintro ⟨rest, h⟩; cases h

theorem witness_LegalStatesAreKept : (running .rounds 15).Legal ∧ afterStep (running .rounds 15) (fun _ => true) = true :=
  ⟨running_legal.2.2.1, by decide +kernel⟩

/-- A legal state whose next transition stops. -/
theorem witness_LegalStatesStopOnlyOnUnwrittenBytes :
    (let s := (full.setBlk []).setPort [.command 0x10000000 0]
     s.Legal ∧ stopsOn (step s) (.blk 0) = true) :=
  ⟨⟨rfl, .inl ⟨rfl, rfl⟩, by unfold State.BlkLegal; decide, fun h => absurd rfl h⟩, by decide +kernel⟩

theorem witness_CheckedMachineStopsExactlyOnUnwritten : (Instr.vadd 0 1 2).wf = true ∧ full.phase = .idle ∧
    (∀ c ∈ cellsRead (.vadd 0 1 2), full.cellWritten c = true) ∧ StateCell.lane 1 0 ∈ cellsRead (.vadd 0 1 2) ∧
    State.reset.phase = .idle ∧ State.reset.cellWritten (.lane 1 0) = false :=
  ⟨rfl, rfl, fun c _ => full_all_written c, by decide, rfl, by decide⟩

/-- The state after reset, and the same with other values in the unwritten cells; one command that runs, one that stops. -/
theorem witness_UnwrittenValuesNeverMatter :
    (let s := State.reset.setPort [.command 0x07500003 7]
     let u := { s with hash := iv, v := Vector.replicate 16 ⟨1, 2, 3, 4⟩ }
     SameWritten s u ∧ s.BusyHashWritten ∧ s ≠ u) ∧
    (let s := State.reset.setPort [.command 0x03000000 0]
     let u := { s with hash := iv }
     SameWritten s u ∧ s.BusyHashWritten ∧ stopsOn (checkedStep s) (.hash 0) = true) := by
  have hv : ∀ (r : VReg) (j : LaneIdx), State.reset.cellWritten (.lane r j) = false := by decide +kernel
  have hh : ∀ i : StateIdx, State.reset.cellWritten (.hash i) = false := by decide +kernel
  refine ⟨⟨⟨rfl, rfl, fun i h => ?_, fun r j h => ?_, rfl⟩, fun h => absurd rfl h, by decide +kernel⟩,
    ⟨⟨rfl, rfl, fun i h => ?_, fun r j h => rfl, rfl⟩, fun h => absurd rfl h, by decide +kernel⟩⟩
  · exact absurd ((hh i).symm.trans h) (by decide)
  · exact absurd ((hv r j).symm.trans h) (by decide)
  · exact absurd ((hh i).symm.trans h) (by decide)

theorem witness_CheckedMachineRunsOnWrittenState :
    (let s := full.setPort [.command 0x10000000 0]
     s.BusyHashWritten ∧ ∃ t, checkedStep s = .next t ∧ t.phase = .load) := by
  refine ⟨fun h => absurd rfl h, ?_⟩
  have key : (match checkedStep (full.setPort [.command 0x10000000 0]) with
      | .next t => t.phase == .load
      | .fault _ => false
      | .refused _ => false) = true := by decide +kernel
  revert key
  cases checkedStep (full.setPort [.command 0x10000000 0]) with
  | next t => exact fun h => ⟨t, rfl, by simpa using h⟩
  | fault f => exact fun h => absurd h (by simp)
  | refused r => exact fun h => absurd h (by simp)

theorem witness_MarksDoNotSteerExec : State.reset.phase = .idle ∧ Instr.vxor 0 1 1 ≠ .compress ∧
    (∀ idx, Instr.vxor 0 1 1 ≠ .rdword idx) ∧ after (.vxor 0 1 1) State.reset (fun _ => true) = true :=
  ⟨rfl, by decide, by decide, by decide +kernel⟩

/-- `full` before round group 0 of its block: the working variables are STATE's, the window four zero groups. -/
def beforeRounds : State := { running .rounds 0 with abef := abefIv, cdgh := cdghIv }

/-- `full` before the FINAL step, with the working variables `w`. -/
def finishing (w : WorkVars) : State := { running .final 16 with abef := abefOf w, cdgh := cdghOf w }

theorem finishing_vars (w : WorkVars) : workVarsOf (finishing w).abef (finishing w).cdgh = w := rfl

theorem finishing_hash (w : WorkVars) : (finishing w).hash = iv := rfl

theorem zero_schedule : ∀ q < 4, scheduleGroup zeroBlock q = ⟨0, 0, 0, 0⟩ := by decide +kernel

theorem beforeRounds_follows : beforeRounds.FollowsTextbook zeroBlock := by
  refine ⟨full_holds_zero, fun _ => ⟨by decide, rfl, fun q _ h => ?_⟩, fun h => nomatch h⟩
  have hq : q < 4 := by
    have : q ≤ 3 := by simpa [beforeRounds, running] using h
    omega
  rw [zero_schedule q hq]
  revert hq; revert q; decide +kernel

theorem finishing_follows {w : WorkVars} (h : w = textbookRounds zeroBlock (workVarsOfHash iv) 64 (Nat.le_refl 64)) :
    (finishing w).FollowsTextbook zeroBlock :=
  ⟨full_holds_zero, fun h => (nomatch h), fun _ => (finishing_vars w).trans (finishing_hash w ▸ h)⟩

/-- Both clauses: a refused command before group 0, and the FINAL step that ends the compression. -/
theorem witness_CompressionStaysOnCourse :
    (let s := beforeRounds.setPort [.command 0x10000000 0]
     s.OnCourse ∧ s.phase ≠ .idle ∧ s.FollowsTextbook zeroBlock ∧ ¬ NextReset s ∧
       afterStep s (fun t => t.phase == .rounds) = true) ∧
    ∃ w, (finishing w).OnCourse ∧ (finishing w).phase ≠ .idle ∧ (finishing w).FollowsTextbook zeroBlock ∧
      ¬ NextReset (finishing w) ∧ ∃ t, step (finishing w) = .next t ∧ t.phase = .idle := by
  have h : (beforeRounds.setPort [.command 0x10000000 0]).FollowsTextbook zeroBlock :=
    ⟨beforeRounds_follows.block, beforeRounds_follows.rounds, beforeRounds_follows.final⟩
  exact ⟨⟨fun _ => ⟨_, h⟩, nofun, h, nofun, by decide +kernel⟩, _, fun _ => ⟨_, finishing_follows rfl⟩, nofun,
    finishing_follows rfl, nofun, _, rfl, rfl⟩

end Sys2Proof.Tests
end

section
/-! ## The STATUS word (10_state.md R35) -/

namespace Sys2Proof.Machine

/-- STATUS as the bits of R35, its width written as the sum of the fields' widths. -/
theorem status_eq_setWidth (s : State) :
    s.status = (s.grp ++ 0#2 ++ phaseCode s.phase ++ s.errCode ++ 0#2 ++ BitVec.ofBool s.err ++
      BitVec.ofBool s.busy : BitVec (5 + 2 + 2 + 4 + 2 + 1 + 1)).setWidth 32 := rfl

theorem status_bit0 (s : State) : s.status.getLsbD 0 = s.busy := by
  rw [status_eq_setWidth, BitVec.getLsbD_setWidth, BitVec.getLsbD_append]
  simp

theorem status_bit1 (s : State) : s.status.getLsbD 1 = s.err := by
  rw [status_eq_setWidth, BitVec.getLsbD_setWidth, BitVec.getLsbD_append, BitVec.getLsbD_append]
  simp

/-- The fields of more than one bit: each is cut out of the concatenation at the place R35 gives it. -/
theorem status_fields (s : State) :
    s.status.extractLsb' 2 2 = 0 ∧ s.status.extractLsb' 4 4 = s.errCode ∧ s.status.extractLsb' 8 2 = phaseCode s.phase ∧
    s.status.extractLsb' 10 2 = 0 ∧ s.status.extractLsb' 12 5 = s.grp := by
  simp (disch := omega) [status_eq_setWidth, BitVec.extractLsb'_setWidth_of_le, BitVec.extractLsb'_append_eq_of_le,
    BitVec.extractLsb'_append_eq_of_add_le, -Nat.reduceAdd]

/-- Bits 31:17 are the zero extension. -/
theorem status_high (s : State) : s.status.extractLsb' 17 15 = 0 := by
  apply BitVec.eq_of_getLsbD_eq
  intro i hi
  simp [status_eq_setWidth]

/-- Settles O11, field by field. -/
theorem statusWordLayout : Obligations.StatusWordLayout := by
  intro s
  obtain ⟨h2, h4, h8, h10, h12⟩ := status_fields s
  refine ⟨by rw [status_bit0, State.busy_eq_true], status_bit1 s, h2, h4, ?_, h10, h12, status_high s⟩
  rw [h8]
  cases s.phase <;> rfl

end Sys2Proof.Machine
end

section
/-! ## What may write each piece of state -/

namespace Sys2Proof.Machine

open Claims

/-! ### What a sequencer turn writes (43_compressor.md R173 to R176) -/

section Turn

variable {s t : State}

theorem TurnEffect.blk_eq (e : TurnEffect s t) : t.blk = s.blk := by cases e <;> rfl

theorem TurnEffect.v_eq (e : TurnEffect s t) : t.v = s.v := by cases e <;> rfl

theorem TurnEffect.err_eq (e : TurnEffect s t) : t.err = s.err := by cases e <;> rfl

theorem TurnEffect.errCode_eq (e : TurnEffect s t) : t.errCode = s.errCode := by cases e <;> rfl

theorem TurnEffect.dout_eq (e : TurnEffect s t) : t.dout = s.dout := by cases e <;> rfl

/-- Only FINAL writes STATE. -/
theorem TurnEffect.hash_cases (e : TurnEffect s t) : t.hash = s.hash ∨ s.phase = .final := by
  cases e with
  | final hp => exact .inr hp
  | _ => exact .inl rfl

/-- Only LOAD and ROUNDS write ABEF and CDGH. -/
theorem TurnEffect.vars_cases (e : TurnEffect s t) :
    (t.abef = s.abef ∧ t.cdgh = s.cdgh) ∨ s.phase = .load ∨ s.phase = .rounds := by
  cases e with
  | load b hp => exact .inr (.inl hp)
  | rounds g hp => exact .inr (.inr hp)
  | _ => exact .inl ⟨rfl, rfl⟩

/-- LOAD writes slots 0 to 3 of WIN, ROUNDS of a group from 4 on the slot of that group, and no other turn a slot. -/
theorem TurnEffect.winSlot_cases (e : TurnEffect s t) (q : Fin 5) :
    t.winSlot q.val = s.winSlot q.val ∨ (s.phase = .load ∧ q.val < 4) ∨
      (s.phase = .rounds ∧ 4 ≤ s.grp.toNat ∧ q.val = s.grp.toNat % 5) := by
  cases e with
  | load b hp =>
    rcases Nat.lt_or_ge q.val 4 with hq | hq
    · exact .inr (.inl ⟨hp, hq⟩)
    · obtain rfl : q = 4 := by omega
      exact .inl rfl
  | rounds g hp hg =>
    rcases Nat.lt_or_ge g.val 4 with h4 | h4
    · exact .inl (by simp only [State.winSlot, win_roundsStep_direct s h4])
    · rw [winSlot_roundsStep s h4, Nat.mod_eq_of_lt q.2]
      split
      · next hq => exact .inr (.inr ⟨hp, by omega, by omega⟩)
      · exact .inl rfl
  | _ => exact .inl rfl

/-- An idle turn writes neither PHASE nor GRP. -/
theorem TurnEffect.sequencer_cases (e : TurnEffect s t) : (t.phase = s.phase ∧ t.grp = s.grp) ∨ s.phase ≠ .idle := by
  cases e with
  | idle => exact .inl ⟨rfl, rfl⟩
  | load b hp => exact .inr (by simp [hp])
  | rounds g hp => exact .inr (by simp [hp])
  | final hp => exact .inr (by simp [hp])

end Turn

/-! ### What a command writes -/

/-- A word write leaves every address but its own four as it was (44_host.md R206). -/
theorem readByte_memWrite4_ne (m : List Host.Cell) {idx : WordIdx} (x : Word) {a : Nat}
    (h : ∀ k, a ≠ (byteAddr idx k).val) : readByte (memWrite4 idx x m) a = readByte m a := by
  simp only [memWrite4, readByte_writeByte_ne _ _ (h _)]

section Command

variable {i : Instr} {s t : State}

theorem CommandEffect.abef_eq (e : CommandEffect i s t) : t.abef = s.abef := by cases e <;> rfl

theorem CommandEffect.cdgh_eq (e : CommandEffect i s t) : t.cdgh = s.cdgh := by cases e <;> rfl

theorem CommandEffect.win_eq (e : CommandEffect i s t) : t.win = s.win := by cases e <;> rfl

/-- Only WRSTATE writes STATE, its own word. -/
theorem CommandEffect.hashWord_cases (e : CommandEffect i s t) (k : StateIdx) :
    t.hashWord k = s.hashWord k ∨ s.phase = .idle ∧ ∃ din, i = .wrstate k din := by
  cases e with
  | writeState idx din hi hc =>
    rw [State.hashWord_writeHash]
    split
    · next hk => exact .inr ⟨hi, din, hk ▸ hc⟩
    · exact .inl rfl
  | _ => exact .inl rfl

/-- Only WRBYTE and WRWORD write BLK, at their own addresses. -/
theorem CommandEffect.readByte_cases (e : CommandEffect i s t) (a : Nat) :
    readByte t.blk a = readByte s.blk a ∨ s.phase = .idle ∧
      ((∃ idx din, i = .wrbyte idx din ∧ a = idx.val) ∨
        ∃ idx din, i = .wrword idx din ∧ ∃ k, a = (byteAddr idx k).val) := by
  cases e with
  | writeByte idx din hi hc =>
    by_cases ha : a = idx.val
    · exact .inr ⟨hi, .inl ⟨idx, din, hc, ha⟩⟩
    · exact .inl (readByte_writeByte_ne s.blk _ ha)
  | writeWord idx din hi hc =>
    by_cases ha : ∃ k, a = (byteAddr idx k).val
    · exact .inr ⟨hi, .inr ⟨idx, din, hc, ha⟩⟩
    · exact .inl (readByte_memWrite4_ne s.blk din fun k h => ha ⟨k, h⟩)
  | _ => exact .inl rfl

/-- Only WRV of a lane and the datapath commands with that destination write V. -/
theorem CommandEffect.vLane_cases (e : CommandEffect i s t) (r : VReg) (j : LaneIdx) :
    t.vLane r j = s.vLane r j ∨ s.phase = .idle ∧ ((∃ din, i = .wrv r j din) ∨ r ∈ destinations i) := by
  cases e with
  | writeOneLane r' j' din hi hc =>
    rw [State.vLane_writeLane]
    split
    · next h => obtain ⟨rfl, rfl⟩ := h; exact .inr ⟨hi, .inl ⟨din, hc⟩⟩
    · exact .inl rfl
  | datapath vd g hi hd =>
    rw [State.vLane_writeV]
    split
    · next h => exact .inr ⟨hi, .inr (by simp [hd, h])⟩
    · exact .inl rfl
  | datapathPair vd va vb gr g g' hi hc =>
    subst hc
    rw [State.vLane_writeV, State.vLane_writeV]
    split
    · next h => exact .inr ⟨hi, .inr (by simp [destinations, h])⟩
    · split
      · next h => exact .inr ⟨hi, .inr (by simp [destinations, h])⟩
      · exact .inl rfl
  | _ => exact .inl rfl

/-- Only COMPRESS writes PHASE and GRP. -/
theorem CommandEffect.sequencer_cases (e : CommandEffect i s t) :
    (t.phase = s.phase ∧ t.grp = s.grp) ∨ s.phase = .idle ∧ i = .compress := by
  cases e with
  | startCompression g hi hc => exact .inr ⟨hi, hc⟩
  | _ => exact .inl ⟨rfl, rfl⟩

/-- Only a refused command writes ERR and ERRCODE; a legal one is refused while busy alone. -/
theorem CommandEffect.error_cases (e : CommandEffect i s t) (hw : i.wf = true) :
    (t.err = s.err ∧ t.errCode = s.errCode) ∨ s.phase ≠ .idle ∧ i ≠ .nop ∧ i ≠ .rdstatus := by
  cases e with
  | refusedBusy hb hn hr => exact .inr ⟨hb, hn, hr⟩
  | refusedIllegal h => simp [h] at hw
  | _ => exact .inl ⟨rfl, rfl⟩

/-- Only the read commands write DOUT. -/
theorem CommandEffect.dout_cases (e : CommandEffect i s t) :
    t.dout = s.dout ∨ i = .rdstatus ∨ s.phase = .idle ∧
      ((∃ idx, i = .rdstate idx) ∨ (∃ idx, i = .rdword idx) ∨ ∃ v j, i = .rdv v j) := by
  cases e with
  | readStatus hc => exact .inr (.inl hc)
  | read x hi hc =>
    refine .inr (.inr ⟨hi, ?_⟩)
    rcases hc with ⟨idx, hc, -⟩ | ⟨idx, hc, -⟩ | ⟨v, j, hc, -⟩
    · exact .inl ⟨idx, hc⟩
    · exact .inr (.inl ⟨idx, hc⟩)
    · exact .inr (.inr ⟨v, j, hc⟩)
  | _ => exact .inl rfl

end Command

/-! ### What a transition that is no reset writes -/

/-- A decoded command is legal (30_encoding.md R78). -/
theorem wf_of_decode {cmd din : Word} {i : Instr} (h : decode cmd din = .ok i) : i.wf = true := by
  unfold decode at h
  split at h
  · cases h
  · dsimp only at h
    split at h
    · next hw => exact Except.ok.inj h ▸ hw
    · cases h

/-- The next event is an illegal word. -/
def NextIllegal (s : State) : Prop :=
  ∃ cmd din rest r, s.port = .command cmd din :: rest ∧ decode cmd din = .error r

/-- A transition that is no reset, with the event taken from the port: a sequencer turn, a legal command, or an illegal
word. -/
theorem step_cases {s t : State} (h : step s = .next t) (hr : ¬ NextReset s) :
    ∃ rest, (NextTurn s ∧ TurnEffect (s.setPort rest) t) ∨
      (∃ i, NextCommand s i ∧ i.wf = true ∧ CommandEffect i (s.setPort rest) t) ∨
      (NextIllegal s ∧ t = (s.setPort rest).raiseError .illegal) := by
  cases step_effect h with
  | quiet _ hp e => exact ⟨s.port, .inl ⟨.inl hp, e⟩⟩
  | turn rest _ hp e => exact ⟨rest, .inl ⟨.inr ⟨rest, hp⟩, e⟩⟩
  | command cmd din rest i _ hp hd e => exact ⟨rest, .inr (.inl ⟨i, ⟨cmd, din, rest, hp, hd⟩, wf_of_decode hd, e⟩)⟩
  | illegal cmd din rest r hp hd => exact ⟨rest, .inr (.inr ⟨⟨cmd, din, rest, r, hp, hd⟩, rfl⟩)⟩
  | reset rest hp => exact absurd ⟨rest, hp⟩ hr

section Transition

variable {s t : State}

theorem step_hashWord_writers (h : step s = .next t) (hr : ¬ NextReset s) (k : StateIdx) (hk : t.hashWord k ≠ s.hashWord k) :
    (s.phase = .idle ∧ ∃ din, NextCommand s (.wrstate k din)) ∨ (NextTurn s ∧ s.phase = .final) := by
  obtain ⟨rest, ⟨hn, e⟩ | ⟨i, hn, -, e⟩ | ⟨-, rfl⟩⟩ := step_cases h hr
  · rcases e.hash_cases with he | hp
    · exact absurd (by simp only [State.hashWord, he, State.setPort_hash]) hk
    · exact .inr ⟨hn, hp⟩
  · rcases e.hashWord_cases k with he | ⟨hp, din, rfl⟩
    · exact absurd he hk
    · exact .inl ⟨hp, din, hn⟩
  · exact absurd rfl hk

theorem step_readByte_writers (h : step s = .next t) (hr : ¬ NextReset s) (a : Nat)
    (ha : readByte t.blk a ≠ readByte s.blk a) : s.phase = .idle ∧
      ((∃ idx din, NextCommand s (.wrbyte idx din) ∧ a = idx.val) ∨
        ∃ idx din, NextCommand s (.wrword idx din) ∧ ∃ k, a = (byteAddr idx k).val) := by
  obtain ⟨rest, ⟨-, e⟩ | ⟨i, hn, -, e⟩ | ⟨-, rfl⟩⟩ := step_cases h hr
  · exact absurd (by rw [e.blk_eq, State.setPort_blk]) ha
  · rcases e.readByte_cases a with he | ⟨hp, ⟨idx, din, rfl, hi⟩ | ⟨idx, din, rfl, hi⟩⟩
    · exact absurd he ha
    · exact ⟨hp, .inl ⟨idx, din, hn, hi⟩⟩
    · exact ⟨hp, .inr ⟨idx, din, hn, hi⟩⟩
  · exact absurd rfl ha

theorem step_vLane_writers (h : step s = .next t) (hr : ¬ NextReset s) (r : VReg) (j : LaneIdx)
    (hv : t.vLane r j ≠ s.vLane r j) : s.phase = .idle ∧
      ((∃ din, NextCommand s (.wrv r j din)) ∨ ∃ i, NextCommand s i ∧ r ∈ destinations i) := by
  obtain ⟨rest, ⟨-, e⟩ | ⟨i, hn, -, e⟩ | ⟨-, rfl⟩⟩ := step_cases h hr
  · exact absurd (by simp only [State.vLane, State.vGroup, e.v_eq, State.setPort_v]) hv
  · rcases e.vLane_cases r j with he | ⟨hp, ⟨din, rfl⟩ | hd⟩
    · exact absurd he hv
    · exact ⟨hp, .inl ⟨din, hn⟩⟩
    · exact ⟨hp, .inr ⟨i, hn, hd⟩⟩
  · exact absurd rfl hv

theorem step_vars_writers (h : step s = .next t) (hr : ¬ NextReset s) (hv : t.abef ≠ s.abef ∨ t.cdgh ≠ s.cdgh) :
    NextTurn s ∧ (s.phase = .load ∨ s.phase = .rounds) := by
  obtain ⟨rest, ⟨hn, e⟩ | ⟨i, -, -, e⟩ | ⟨-, rfl⟩⟩ := step_cases h hr
  · rcases e.vars_cases with ⟨ha, hc⟩ | hp
    · exact absurd hv (by simp [ha, hc])
    · exact ⟨hn, hp⟩
  · exact absurd hv (by simp [e.abef_eq, e.cdgh_eq])
  · exact absurd hv (by simp)

theorem step_winSlot_writers (h : step s = .next t) (hr : ¬ NextReset s) (q : Fin 5)
    (hq : t.winSlot q.val ≠ s.winSlot q.val) : NextTurn s ∧
      ((s.phase = .load ∧ q.val < 4) ∨ (s.phase = .rounds ∧ 4 ≤ s.grp.toNat ∧ q.val = s.grp.toNat % 5)) := by
  obtain ⟨rest, ⟨hn, e⟩ | ⟨i, -, -, e⟩ | ⟨-, rfl⟩⟩ := step_cases h hr
  · rcases e.winSlot_cases q with he | hp
    · exact absurd he hq
    · exact ⟨hn, hp⟩
  · exact absurd (by simp only [State.winSlot, e.win_eq, State.setPort_win]) hq
  · exact absurd rfl hq

theorem step_sequencer_writers (h : step s = .next t) (hr : ¬ NextReset s) (hp : t.phase ≠ s.phase ∨ t.grp ≠ s.grp) :
    (NextTurn s ∧ s.phase ≠ .idle) ∨ (s.phase = .idle ∧ NextCommand s .compress) := by
  obtain ⟨rest, ⟨hn, e⟩ | ⟨i, hn, -, e⟩ | ⟨-, rfl⟩⟩ := step_cases h hr
  · rcases e.sequencer_cases with ⟨h1, h2⟩ | hb
    · exact absurd hp (by simp [h1, h2])
    · exact .inl ⟨hn, hb⟩
  · rcases e.sequencer_cases with ⟨h1, h2⟩ | ⟨hi, rfl⟩
    · exact absurd hp (by simp [h1, h2])
    · exact .inr ⟨hi, hn⟩
  · exact absurd hp (by simp)

theorem step_error_writers (h : step s = .next t) (hr : ¬ NextReset s) (he : t.err ≠ s.err ∨ t.errCode ≠ s.errCode) :
    NextRaises s := by
  obtain ⟨rest, ⟨-, e⟩ | ⟨i, hn, hw, e⟩ | ⟨hn, -⟩⟩ := step_cases h hr
  · exact absurd he (by simp [e.err_eq, e.errCode_eq])
  · rcases e.error_cases hw with ⟨h1, h2⟩ | ⟨hb, h1, h2⟩
    · exact absurd he (by simp [h1, h2])
    · exact .inr ⟨hb, i, hn, h1, h2⟩
  · exact .inl hn

theorem step_dout_writers (h : step s = .next t) (hr : ¬ NextReset s) (hd : t.dout ≠ s.dout) :
    NextCommand s .rdstatus ∨ (s.phase = .idle ∧
      ((∃ idx, NextCommand s (.rdstate idx)) ∨ (∃ idx, NextCommand s (.rdword idx)) ∨ ∃ v j, NextCommand s (.rdv v j))) := by
  obtain ⟨rest, ⟨-, e⟩ | ⟨i, hn, -, e⟩ | ⟨-, rfl⟩⟩ := step_cases h hr
  · exact absurd e.dout_eq hd
  · rcases e.dout_cases with he | rfl | ⟨hi, ⟨idx, rfl⟩ | ⟨idx, rfl⟩ | ⟨v, j, rfl⟩⟩
    · exact absurd he hd
    · exact .inl hn
    · exact .inr ⟨hi, .inl ⟨idx, hn⟩⟩
    · exact .inr ⟨hi, .inr (.inl ⟨idx, hn⟩)⟩
    · exact .inr ⟨hi, .inr (.inr ⟨v, j, hn⟩)⟩
  · exact absurd rfl hd

end Transition

/-- Settles O51, one kind of state after another. -/
theorem accessMatrixOfWrites : Obligations.AccessMatrixOfWrites := fun _ _ h hr =>
  ⟨step_hashWord_writers h hr, step_readByte_writers h hr, step_vLane_writers h hr, step_vars_writers h hr,
    step_winSlot_writers h hr, step_sequencer_writers h hr, step_error_writers h hr, step_dout_writers h hr⟩

end Sys2Proof.Machine
end

section
/-! ## Legal states are kept -/

namespace Sys2Proof.Machine

theorem blkFull_of_readBlock {s : State} {g : Lanes LaneGroup} (h : readBlock s.blk = .ok g) : s.BlkFull := by
  rcases readBlock_cases s.blk with ⟨-, hf⟩ | ⟨a, -, e⟩
  · exact hf
  · rw [e] at h; cases h

/-- The state after reset is legal: PHASE IDLE, no error, and no byte of BLK listed. -/
theorem legal_reset : State.reset.Legal :=
  ⟨rfl, .inl ⟨rfl, rfl⟩, ⟨List.Pairwise.nil, nofun⟩, fun h => absurd rfl h⟩

/-- The events to come have no part in legality. -/
theorem State.Legal.setPort {s : State} (h : s.Legal) (es : List PortEvent) : (s.setPort es).Legal :=
  ⟨h.sequencer, h.error, h.blk, h.busyBlk⟩

/-- Raising an error leaves ERR and ERRCODE together: the first error's code stays, or the new one is recorded
(60_exceptions.md R230, R231). -/
theorem State.Legal.raiseError {s : State} (h : s.Legal) (e : ErrorKind) : (s.raiseError e).Legal := by
  refine ⟨h.sequencer, .inr ⟨rfl, ?_⟩, h.blk, h.busyBlk⟩
  rw [State.raiseError_errCode]
  rcases h.error with ⟨he, -⟩ | ⟨he, hc⟩
  · cases e <;> simp [he, errorCode]
  · simpa [he] using hc

/-- A write to BLK while idle needs the canonical form only. -/
theorem State.Legal.setBlk {s : State} (h : s.Legal) (hi : s.phase = .idle) {m : List Host.Cell} (hm : blkWf m) :
    (s.setBlk m).Legal :=
  ⟨h.sequencer, h.error, hm, fun hb => absurd hi hb⟩

/-- The ROUNDS step leaves GRP in 0..15 with PHASE ROUNDS, or 16 with PHASE FINAL (10_state.md R33). -/
theorem sequencerLegal_roundsStep (s : State) (g : GroupIdx) : (roundsStep s g).SequencerLegal := by
  unfold State.SequencerLegal
  rcases Nat.lt_or_ge g.val 15 with h | h
  · obtain ⟨hp, hg⟩ := roundsStep_of_lt s h
    simp only [hp, hg]
    omega
  · obtain ⟨hp, hg⟩ := roundsStep_of_last s (g := g) (by omega)
    simp only [hp, hg]

/-- Every step of the sequencer keeps the legal states. -/
theorem TurnEffect.legal {s t : State} (e : TurnEffect s t) (h : s.Legal) : t.Legal := by
  cases e with
  | idle => exact h
  | load b hp hb => exact ⟨by simp [State.SequencerLegal], h.error, h.blk, fun _ => blkFull_of_holdsBlock hb⟩
  | rounds g hp hg => exact ⟨sequencerLegal_roundsStep s g, h.error, h.blk, fun _ => h.busyBlk (by simp [hp])⟩
  | final hp => exact ⟨rfl, h.error, h.blk, fun hb => absurd rfl hb⟩

/-- Every command keeps the legal states: COMPRESS has found BLK full, and BLK is written in its canonical form. -/
theorem CommandEffect.legal {i : Instr} {s t : State} (e : CommandEffect i s t) (h : s.Legal) : t.Legal := by
  cases e with
  | writeByte a din hi => exact h.setBlk hi (blkWf_writeByte h.blk a.2 _)
  | writeWord idx din hi => exact h.setBlk hi (blkWf_memWrite4 h.blk idx din)
  | startCompression g hi hc hg => exact ⟨rfl, h.error, h.blk, fun _ => blkFull_of_readBlock hg⟩
  | refusedBusy => exact h.raiseError .busy
  | refusedIllegal => exact h.raiseError .illegal
  | _ => exact ⟨h.sequencer, h.error, h.blk, h.busyBlk⟩

/-- Settles O52, by what the event at the ports can do. -/
theorem legalStatesAreKept : Obligations.LegalStatesAreKept := by
  intro s t h hs
  cases step_effect hs with
  | quiet _ _ e => exact e.legal h
  | turn rest _ _ e => exact e.legal (h.setPort rest)
  | command cmd din rest i _ _ _ e => exact e.legal (h.setPort rest)
  | illegal cmd din rest => exact (h.setPort rest).raiseError .illegal
  | reset rest => exact legal_reset.setPort rest

end Sys2Proof.Machine
end

section
/-! ## The message schedule of a block (41_schedule.md R127) -/

namespace Sys2Proof.Machine

/-- The window of the next sixteen words keeps fifteen of this one. -/
theorem scheduleWindow_succ_getElem (b : Block) (t : Nat) {i : Nat} (h : i < 15) :
    (scheduleWindow b (t + 1))[i] = (scheduleWindow b t)[i + 1] := by
  interval_cases i <;> rfl

/-- Entry `i` of the window at `t` is `W[t+i]`. -/
theorem scheduleWindow_getElem (b : Block) (t : Nat) {i : Nat} (h : i < 16) :
    (scheduleWindow b t)[i] = scheduleWord b (t + i) := by
  induction i generalizing t with
  | zero => rfl
  | succ i ih =>
    rw [← scheduleWindow_succ_getElem b t (by omega), ih (t + 1) (by omega)]
    congr 1
    omega

/-- The first sixteen schedule words are the block's. -/
theorem scheduleWord_of_block (b : Block) (i : WordIdx) : scheduleWord b i.val = blockWord b i := by
  have h := scheduleWindow_getElem b 0 i.2
  rw [Nat.zero_add] at h
  rw [← h]
  exact Vector.getElem_ofFn i.2

/-- The FIPS recurrence. -/
theorem scheduleWord_add_sixteen (b : Block) (t : Nat) :
    scheduleWord b (t + 16) =
      sigma1 (scheduleWord b (t + 14)) + scheduleWord b (t + 9) + sigma0 (scheduleWord b (t + 1)) + scheduleWord b t := by
  have h : scheduleWord b (t + 16) = nextScheduleWord (scheduleWindow b t) :=
    (scheduleWindow_getElem b (t + 1) (i := 15) (by omega)).symm.trans rfl
  rw [h]
  simp only [nextScheduleWord, scheduleWindow_getElem, Nat.add_zero]

/-- Schedule groups 0 to 3 are read from the block. -/
theorem scheduleGroup_of_block (b : Block) (q : Fin 4) : scheduleGroup b q.val = blockGroup b q := by
  simp only [scheduleGroup, blockGroup, ← scheduleWord_of_block]

/-- σ0×4 is σ0 in each lane (41_schedule.md R122). -/
theorem sigma0Lanes_eq (x : LaneGroup) : sigma0Lanes x = mapLanes sigma0 x := rfl

/-- Four schedule groups in a row give the next one. -/
theorem schedule_scheduleGroup (b : Block) (q : Nat) :
    schedule (scheduleGroup b q) (scheduleGroup b (q + 1)) (scheduleGroup b (q + 2)) (scheduleGroup b (q + 3)) =
      scheduleGroup b (q + 4) := by
  have h0 := scheduleWord_add_sixteen b (4 * q)
  have h1 := scheduleWord_add_sixteen b (4 * q + 1)
  have h2 := scheduleWord_add_sixteen b (4 * q + 2)
  have h3 := scheduleWord_add_sixteen b (4 * q + 3)
  simp only [Nat.add_assoc, Nat.reduceAdd] at h0 h1 h2 h3
  simp only [schedule, scheduleStep1, scheduleStep2, sigma0Lanes_eq, reassemble, addLanes, lanewise, mapLanes,
    scheduleGroup, Nat.mul_add, Nat.reduceMul, Nat.add_assoc, Nat.reduceAdd, h0, h1, h2, h3, Lanes.mk.injEq]
  refine ⟨?_, ?_, ?_, ?_⟩ <;> ac_rfl

/-! ## Four rounds of a group (42_round.md R147, R148) -/

/-- A round pair with the roles of the two registers exchanged: the two rounds leave A, B, E and F where C, D, G and H are
read from next. -/
theorem workVarsOf_roundPair (cdgh abef wk : LaneGroup) :
    workVarsOf (roundPair cdgh abef wk) abef = round (round (workVarsOf abef cdgh) wk.l3) wk.l2 := rfl

/-- The working variables after `rounds4`: the rounds of lanes 3, 2, 1, 0 in that order. -/
theorem workVarsOf_rounds4 (abef cdgh w : LaneGroup) (g : GroupIdx) :
    workVarsOf (rounds4 abef cdgh w g).1 (rounds4 abef cdgh w g).2 =
      round (round (round (round (workVarsOf abef cdgh) (w.l3 + (KG g).l3)) (w.l2 + (KG g).l2)) (w.l1 + (KG g).l1))
        (w.l0 + (KG g).l0) := by
  simp only [rounds4, workVarsOf_roundPair]
  rfl

theorem textbookRounds_congr (b : Block) (w : WorkVars) {m n : Nat} (h : m = n) (hm : m ≤ 64) (hn : n ≤ 64) :
    textbookRounds b w m hm = textbookRounds b w n hn := by
  subst h
  rfl

/-- The four textbook rounds of group `g`. -/
theorem textbookRounds_group (b : Block) (w : WorkVars) (g : GroupIdx) (h : 4 * (g.val + 1) ≤ 64) :
    textbookRounds b w (4 * (g.val + 1)) h =
      round (round (round (round (textbookRounds b w (4 * g.val) (by omega))
        (scheduleWord b (4 * g.val) + K ⟨4 * g.val, by omega⟩))
        (scheduleWord b (4 * g.val + 1) + K ⟨4 * g.val + 1, by omega⟩))
        (scheduleWord b (4 * g.val + 2) + K ⟨4 * g.val + 2, by omega⟩))
        (scheduleWord b (4 * g.val + 3) + K ⟨4 * g.val + 3, by omega⟩) := rfl

/-- `rounds4` on schedule group `g` is four textbook rounds. -/
theorem workVarsOf_rounds4_textbook {b : Block} {w : WorkVars} {abef cdgh : LaneGroup} {g : GroupIdx}
    (h : workVarsOf abef cdgh = textbookRounds b w (4 * g.val) (by omega)) :
    workVarsOf (rounds4 abef cdgh (scheduleGroup b g.val) g).1 (rounds4 abef cdgh (scheduleGroup b g.val) g).2 =
      textbookRounds b w (4 * (g.val + 1)) (by omega) := by
  rw [workVarsOf_rounds4, h, textbookRounds_group]
  rfl

/-! ## Running compressions -/

/-- A state holds one block at most. -/
theorem State.HoldsBlock.unique {s : State} {b b' : Block} (h : s.HoldsBlock b) (h' : s.HoldsBlock b') : b' = b :=
  funext fun a => Option.some.inj ((h' a).symm.trans (h a))

/-- A compression that has not loaded yet follows the textbook's. -/
theorem followsTextbook_of_load {s : State} {b : Block} (hp : s.phase = .load) (h : s.HoldsBlock b) :
    s.FollowsTextbook b :=
  ⟨h, fun hr => by simp [hp] at hr, fun hf => by simp [hp] at hf⟩

/-- The events to come have no part in where a compression is. -/
theorem State.FollowsTextbook.setPort {s : State} {b : Block} (h : s.FollowsTextbook b) (es : List PortEvent) :
    (s.setPort es).FollowsTextbook b :=
  ⟨h.block, h.rounds, h.final⟩

section Rounds

variable {s : State} {b : Block} {g : GroupIdx}

/-- The window of a state on course before round group `g` (10_state.md R32). -/
def State.WindowAt (s : State) (b : Block) (g : Nat) : Prop :=
  ∀ q, g - 5 ≤ q → q ≤ max 3 (g - 1) → s.winSlot q = scheduleGroup b q

/-- What the ROUNDS step of group `g` takes from the window is SG(g) (43_compressor.md R174, R175). -/
theorem roundsInput_of_windowAt (h : s.WindowAt b g.val) : roundsInput s g = scheduleGroup b g.val := by
  unfold roundsInput
  split
  · next hd => exact h g.val (by omega) (by simp only [Config.directGroups] at hd; omega)
  · next hd =>
    simp only [Config.directGroups] at hd
    obtain ⟨q, hq⟩ : ∃ q, g.val = q + 4 := ⟨g.val - 4, by omega⟩
    rw [h (g.val - 4) (by omega) (by omega), h (g.val - 3) (by omega) (by omega), h (g.val - 2) (by omega) (by omega),
      h (g.val - 1) (by omega) (by omega), hq]
    exact schedule_scheduleGroup b q

/-- The ROUNDS step leaves the window of the next group: it overwrites the one slot no longer needed. -/
theorem windowAt_roundsStep (h : s.WindowAt b g.val) : (roundsStep s g).WindowAt b (g.val + 1) := by
  intro q h1 h2
  rcases Nat.lt_or_ge g.val 4 with h4 | h4
  · simp only [State.winSlot, win_roundsStep_direct s h4]
    exact h q (by omega) (by omega)
  · rw [winSlot_roundsStep s h4]
    split
    · next hq =>
      obtain rfl : q = g.val := by omega
      exact roundsInput_of_windowAt h
    · next hq => exact h q (by omega) (by omega)

/-- The ROUNDS step leaves the working variables after four more textbook rounds. -/
theorem workVarsOf_roundsStep {w : WorkVars} (hw : s.WindowAt b g.val)
    (h : workVarsOf s.abef s.cdgh = textbookRounds b w (4 * g.val) (by omega)) :
    workVarsOf (roundsStep s g).abef (roundsStep s g).cdgh = textbookRounds b w (4 * (g.val + 1)) (by omega) := by
  rw [← workVarsOf_rounds4_textbook h, ← roundsInput_of_windowAt hw]
  rfl

/-- The ROUNDS step keeps a compression on course. -/
theorem State.FollowsTextbook.roundsStep (h : s.FollowsTextbook b) (hp : s.phase = .rounds) (hg : s.grp.toNat = g.val) :
    (roundsStep s g).FollowsTextbook b := by
  obtain ⟨_, hv, hw⟩ := h.rounds hp
  simp only [hg] at hv hw
  have hv' := workVarsOf_roundsStep hw hv
  have hw' := windowAt_roundsStep hw
  rcases Nat.lt_or_ge g.val 15 with h15 | h15
  · obtain ⟨hp', hg'⟩ := roundsStep_of_lt s h15
    refine ⟨h.block, fun _ => ⟨by omega, ?_, ?_⟩, fun hf => by simp [hp'] at hf⟩
    · simp only [hg']
      exact hv'
    · simp only [hg']
      exact hw'
  · have hp' := (roundsStep_of_last s (g := g) (by omega)).1
    exact ⟨h.block, fun hr => by simp [hp'] at hr, fun _ => hv'.trans (textbookRounds_congr b _ (by omega) _ _)⟩

end Rounds

/-- Every sequencer turn keeps a compression on course. -/
theorem TurnEffect.follows {s t : State} {b : Block} (e : TurnEffect s t) (h : s.FollowsTextbook b) :
    t.FollowsTextbook b := by
  cases e with
  | idle => exact h
  | load b' hp hb =>
    obtain rfl := h.block.unique hb
    refine ⟨hb, fun _ => ⟨by simp, rfl, fun q _ hq => ?_⟩, nofun⟩
    have h4 : q < 4 := Nat.lt_succ_of_le (by simpa using hq)
    refine Eq.trans ?_ (scheduleGroup_of_block b' ⟨q, h4⟩).symm
    interval_cases q <;> rfl
  | rounds g hp hg => exact h.roundsStep hp hg
  | final => exact ⟨h.block, nofun, nofun⟩

/-- While a compression runs, its turn either goes on with STATE as it was, or is FINAL and feeds forward. -/
theorem TurnEffect.busy_cases {s t : State} (e : TurnEffect s t) (hb : s.phase ≠ .idle) :
    (t.phase ≠ .idle ∧ t.hash = s.hash) ∨ (s.phase = .final ∧ t = finalStep s) := by
  cases e with
  | idle hp => exact absurd hp hb
  | load b hp => exact .inl ⟨nofun, rfl⟩
  | rounds g hp =>
    refine .inl ⟨?_, rfl⟩
    simp only [roundsStep]
    split <;> simp
  | final hp => exact .inr ⟨hp, rfl⟩

/-- While a compression runs, no command does more than write ERR, ERRCODE and DOUT (60_exceptions.md R232). -/
theorem CommandEffect.busy_frame {i : Instr} {s t : State} (e : CommandEffect i s t) (hb : s.phase ≠ .idle) :
    t = { s with err := t.err, errCode := t.errCode, dout := t.dout } := by
  cases e with
  | nothing | readStatus | refusedBusy | refusedIllegal => rfl
  | _ => contradiction

/-- FINAL, on course, leaves `compressBlock(S, B)` in STATE (43_compressor.md R176, R177). -/
theorem State.FollowsTextbook.finalStep_hash {s : State} {b : Block} (h : s.FollowsTextbook b) (hp : s.phase = .final) :
    (finalStep s).hash = compressBlock s.hash b := by
  rw [Machine.finalStep_hash, h.final hp]
  rfl

/-- From an idle state a command leaves the block idle, or it was COMPRESS and BLK is full. -/
theorem CommandEffect.idle_cases {i : Instr} {s t : State} (e : CommandEffect i s t) (hi : s.phase = .idle) :
    t.phase = .idle ∨ (t.phase = .load ∧ t.BlkFull) := by
  cases e with
  | startCompression g _ _ hg => exact .inr ⟨rfl, blkFull_of_readBlock hg⟩
  | _ => exact .inl hi

/-! ### Over every transition -/

section Transition

open Claims

variable {s t : State}

/-- A reset leaves the block idle. -/
theorem phase_of_reset (h : step s = .next t) (hr : NextReset s) : t.phase = .idle := by
  obtain ⟨rest, hp⟩ := hr
  simp only [step, hp, runEvent] at h
  exact Host.Outcome.next.inj h ▸ rfl

/-- An idle block stays idle, or a compression of a written block begins. -/
theorem step_of_idle (h : step s = .next t) (hr : ¬ NextReset s) (hi : s.phase = .idle) :
    t.phase = .idle ∨ (t.phase = .load ∧ t.BlkFull) := by
  obtain ⟨rest, ⟨-, e⟩ | ⟨i, -, -, e⟩ | ⟨-, rfl⟩⟩ := step_cases h hr
  · rcases e.sequencer_cases with ⟨hp, -⟩ | hb
    · exact .inl (hp.trans hi)
    · exact absurd hi hb
  · exact e.idle_cases hi
  · exact .inl hi

/-- A running compression that follows the textbook's goes on doing so, STATE as it was, or FINAL ends it with
`compressBlock(S, B)` in STATE. -/
theorem State.FollowsTextbook.step {b : Block} (h : s.FollowsTextbook b) (hb : s.phase ≠ .idle) (hr : ¬ NextReset s)
    (hs : step s = .next t) : t.FollowsTextbook b ∧
      ((t.phase ≠ .idle ∧ t.hash = s.hash) ∨
        (t.phase = .idle ∧ NextTurn s ∧ s.phase = .final ∧ t.hash = compressBlock s.hash b)) := by
  obtain ⟨rest, ⟨hn, e⟩ | ⟨i, -, -, e⟩ | ⟨-, rfl⟩⟩ := step_cases hs hr
  · refine ⟨e.follows (h.setPort rest), ?_⟩
    rcases e.busy_cases hb with hgo | ⟨hp, rfl⟩
    · exact .inl hgo
    · exact .inr ⟨rfl, hn, hp, (h.setPort rest).finalStep_hash hp⟩
  · rw [e.busy_frame hb]
    exact ⟨⟨h.block, h.rounds, h.final⟩, .inl ⟨hb, rfl⟩⟩
  · exact ⟨⟨h.block, h.rounds, h.final⟩, .inl ⟨hb, rfl⟩⟩

/-- Every transition keeps a running compression on course. -/
theorem State.OnCourse.step (h : s.OnCourse) (hs : step s = .next t) : t.OnCourse := by
  intro ht
  by_cases hr : NextReset s
  · exact absurd (phase_of_reset hs hr) ht
  by_cases hi : s.phase = .idle
  · rcases step_of_idle hs hr hi with hp | ⟨hp, hf⟩
    · exact absurd hp ht
    · obtain ⟨b, hb⟩ := holdsBlock_of_blkFull hf
      exact ⟨b, followsTextbook_of_load hp hb⟩
  · obtain ⟨b, hb⟩ := h hi
    exact ⟨b, (hb.step hi hr hs).1⟩

end Transition

/-- Settles O59, from the sequencer's steps on course and the refusal of every command meanwhile. -/
theorem compressionStaysOnCourse : Obligations.CompressionStaysOnCourse := by
  refine ⟨fun s t h hs => h.step hs, fun s t b hb h hr hs => ?_⟩
  obtain ⟨ht, ⟨hp, hh⟩ | ⟨hp, hend⟩⟩ := h.step hb hr hs
  · exact ⟨ht.block, fun _ => ⟨hh, ht⟩, fun hi => absurd hi hp⟩
  · exact ⟨ht.block, fun hi => absurd hp hi, fun _ => hend⟩

/-- From LOAD with nothing to come, the ROUNDS step of group `g` begins after `g + 1` steps, on course. -/
theorem runSteps_to_group {s : State} {b : Block} (hp : s.phase = .load) (hb : s.HoldsBlock b) (hq : s.port = [])
    (g : GroupIdx) : ∃ t, runSteps (g.val + 1) s = .next t ∧ t.phase = .rounds ∧ t.grp.toNat = g.val ∧ t.port = [] ∧
      t.FollowsTextbook b := by
  obtain ⟨g, hg⟩ := g
  induction g with
  | zero =>
    have e : sequencerTurn s = .next _ := (sequencerTurn_load hp).trans (loadStep_of_holds hb)
    exact ⟨_, runSteps_succ ((step_of_quiet hq).trans e), rfl, rfl, hq,
      (sequencerTurn_effect e).follows (followsTextbook_of_load hp hb)⟩
  | succ g ih =>
    obtain ⟨u, hrun, hpu, hgu, hqu, hu⟩ := ih (by omega)
    have e : step u = .next (roundsStep u ⟨g, by omega⟩) := (step_of_quiet hqu).trans (sequencerTurn_rounds hpu hgu)
    obtain ⟨hp', hg'⟩ := roundsStep_of_lt u (g := ⟨g, by omega⟩) (by simp only; omega)
    exact ⟨_, (runSteps_add hrun).trans (runSteps_succ e), hp', hg', hqu, hu.roundsStep hpu hgu⟩

/-- Settles O46: the state that `runSteps_to_group` reaches is on course, and its window is that of its group. -/
theorem windowHoldsScheduleGroups : Obligations.WindowHoldsScheduleGroups := by
  intro s b g hp hb hq hg
  obtain ⟨t, hrun, hpt, hgt, -, ht⟩ := runSteps_to_group hp hb hq ⟨g, hg⟩
  obtain ⟨_, -, hw⟩ := ht.rounds hpt
  simp only [hgt] at hw
  exact ⟨t, hrun, hpt, hgt, hw⟩

end Sys2Proof.Machine
end

section
/-! ## The commands at the ports and the byte and word views of BLK (20_memory.md) -/

namespace Sys2Proof.Machine

/-! ### The checked machine: it stops on the first unwritten cell, else goes on as the machine does
(70_reset_and_hazards.md R264) -/

section Checked

variable {s : State} {i : Instr} {c : StateCell}

theorem checkedExec_of_unwritten (hw : i.wf = true) (hi : s.phase = .idle) (h : firstUnwritten i s = some c) :
    checkedExec i s = .fault (.unwrittenRead c) := by
  simp only [checkedExec, hw, hi, and_self, if_true, h]

theorem checkedExec_of_written (h : firstUnwritten i s = none) : checkedExec i s = exec i s := by
  simp only [checkedExec, h, ite_self]

/-- BUSY is looked at before the cells read (44_host.md R200). -/
theorem checkedExec_of_busy (hb : s.phase ≠ .idle) : checkedExec i s = exec i s := if_neg fun h => hb h.2

theorem checkedStep_of_unwritten (h : unwrittenAhead s = some c) : checkedStep s = .fault (.unwrittenRead c) := by
  simp only [checkedStep, h]

theorem checkedStep_of_written (h : unwrittenAhead s = none) : checkedStep s = step s := by
  simp only [checkedStep, h]

@[simp] theorem firstUnwritten_setPort (i : Instr) (s : State) (es : List PortEvent) :
    firstUnwritten i (s.setPort es) = firstUnwritten i s := by
  simp only [firstUnwritten, State.cellWritten_setPort]

end Checked

/-! ### A legal command as the next event (30_encoding.md R80) -/

section Event

variable {s : State} {cmd din : Word} {rest : List PortEvent} {i : Instr}

theorem step_of_decode (hp : s.port = .command cmd din :: rest) (hd : decode cmd din = .ok i) :
    step s = exec i (s.setPort rest) := by
  simp only [step_of_command hp, runCommand, hd]

theorem unwrittenAhead_of_decode (hp : s.port = .command cmd din :: rest) (hd : decode cmd din = .ok i) :
    unwrittenAhead s = if s.phase = .idle then firstUnwritten i s else none := by
  simp only [unwrittenAhead, hp, hd]

/-- Both sides look at the same cells: the events to come are none of them. -/
theorem checkedStep_of_decode (hp : s.port = .command cmd din :: rest) (hd : decode cmd din = .ok i) :
    checkedStep s = checkedExec i (s.setPort rest) := by
  have hs := step_of_decode hp hd
  have ha := unwrittenAhead_of_decode hp hd
  by_cases hi : s.phase = .idle
  · rw [if_pos hi] at ha
    have hr := firstUnwritten_setPort i s rest
    cases hu : firstUnwritten i s with
    | none => rw [checkedStep_of_written (ha.trans hu), checkedExec_of_written (hr.trans hu), hs]
    | some c =>
      rw [checkedStep_of_unwritten (ha.trans hu), checkedExec_of_unwritten (wf_of_decode hd) (by simpa) (hr.trans hu)]
  · rw [if_neg hi] at ha
    rw [checkedStep_of_written ha, checkedExec_of_busy (by simpa), hs]

end Event

/-- Settles O6, for each of the two machines. -/
theorem stepRunsTheDecodedCommand : Obligations.StepRunsTheDecodedCommand :=
  fun _ _ _ _ _ hp hd => ⟨step_of_decode hp hd, checkedStep_of_decode hp hd⟩

/-! ### The host access commands, with PHASE IDLE and while busy (44_host.md R203 to R209, 60_exceptions.md R232) -/

section Host

variable {s : State}

theorem exec_wrstate_of_idle (h : s.phase = .idle) (idx : StateIdx) (din : Word) :
    exec (.wrstate idx din) s = .next (s.writeHash idx din) := whenIdle_of_idle h _

theorem exec_rdstate_of_idle (h : s.phase = .idle) (idx : StateIdx) :
    exec (.rdstate idx) s = .next (s.setDout (s.hashWord idx)) := whenIdle_of_idle h _

theorem exec_wrbyte_of_idle (h : s.phase = .idle) (a : ByteIdx) (din : Word) :
    exec (.wrbyte a din) s = .next (s.setBlk (writeByte a.val (din.extractLsb' 0 8) s.blk)) := whenIdle_of_idle h _

theorem exec_wrword_of_idle (h : s.phase = .idle) (idx : WordIdx) (din : Word) :
    exec (.wrword idx din) s = .next (s.setBlk (memWrite4 idx din s.blk)) := whenIdle_of_idle h _

theorem exec_rdword_of_ok (h : s.phase = .idle) {idx : WordIdx} {x : Word} (hx : memRead4 s.blk idx = .ok x) :
    exec (.rdword idx) s = .next (s.setDout x) :=
  (whenIdle_of_idle h _).trans (by rw [hx]; rfl)

theorem exec_wrv_of_idle (h : s.phase = .idle) (r : VReg) (j : LaneIdx) (din : Word) :
    exec (.wrv r j din) s = .next (s.writeLane r j din) := whenIdle_of_idle h _

theorem exec_rdv_of_idle (h : s.phase = .idle) (r : VReg) (j : LaneIdx) :
    exec (.rdv r j) s = .next (s.setDout (s.vLane r j)) := whenIdle_of_idle h _

/-- The busy block refuses every legal command but NOP and RDSTATUS. -/
theorem exec_of_busy (hb : s.phase ≠ .idle) {i : Instr} (hw : i.wf = true) (hn : i ≠ .nop) (hr : i ≠ .rdstatus) :
    exec i s = .next (s.raiseError .busy) := by
  cases i with
  | nop => exact absurd rfl hn
  | rdstatus => exact absurd rfl hr
  | vrnd4 a c w g =>
    have hac : a ≠ c := by simpa [Instr.wf] using hw
    exact (if_neg hac).trans (whenIdle_of_busy hb _)
  | _ => exact whenIdle_of_busy hb _

/-- Only VRND4 can be illegal as an instruction, and it writes registers (30_encoding.md R78). -/
theorem wf_of_destinations_eq_nil {i : Instr} (h : destinations i = []) : i.wf = true := by
  cases i with
  | vrnd4 => cases h
  | _ => rfl

end Host

/-! ### Words and their bytes (10_state.md R24, 20_memory.md R53) -/

/-- Each byte of four put together, most significant first. -/
theorem extract_append_bytes (b0 b1 b2 b3 : Byte) :
    (b0 ++ b1 ++ b2 ++ b3).extractLsb' 24 8 = b0 ∧ (b0 ++ b1 ++ b2 ++ b3).extractLsb' 16 8 = b1 ∧
    (b0 ++ b1 ++ b2 ++ b3).extractLsb' 8 8 = b2 ∧ (b0 ++ b1 ++ b2 ++ b3).extractLsb' 0 8 = b3 := by
  simp (disch := omega) [BitVec.extractLsb'_append_eq_of_le, BitVec.extractLsb'_append_eq_of_add_le, -Nat.reduceAdd]

/-- A word is its four bytes put together. -/
theorem append_extract_bytes (w : Word) :
    w.extractLsb' 24 8 ++ w.extractLsb' 16 8 ++ w.extractLsb' 8 8 ++ w.extractLsb' 0 8 = w := by
  simp [BitVec.extractLsb'_append_extractLsb'_eq_extractLsb', -Nat.reduceAdd]

theorem byteAddr_inj {i : WordIdx} {k k' : Fin 4} : (byteAddr i k').val = (byteAddr i k).val ↔ k' = k := by
  simp only [byteAddr_val, Nat.add_left_cancel_iff, Fin.ext_iff]

/-- The word view in terms of the byte view: block word `i` is `w` when byte `k` of `w` lies at `4i+k`, for all four
`k` (20_memory.md R54). -/
theorem memRead4_eq_ok {m : List Host.Cell} {i : WordIdx} {w : Word} :
    memRead4 m i = .ok w ↔ ∀ k : Fin 4, readByte m (byteAddr i k).val = some (w.extractLsb' (24 - 8 * k.val) 8) := by
  constructor
  · intro h
    rcases memRead4_cases m i with ⟨b0, b1, b2, b3, r0, r1, r2, r3, e⟩ | ⟨k, -, e⟩
    · obtain rfl : b0 ++ b1 ++ b2 ++ b3 = w := Except.ok.inj (e.symm.trans h)
      obtain ⟨h0, h1, h2, h3⟩ := extract_append_bytes b0 b1 b2 b3
      intro k
      match k with
      | 0 => exact r0.trans (congrArg some h0.symm)
      | 1 => exact r1.trans (congrArg some h1.symm)
      | 2 => exact r2.trans (congrArg some h2.symm)
      | 3 => exact r3.trans (congrArg some h3.symm)
    · cases e.symm.trans h
  · intro h
    exact (memRead4_ok (h 0) (h 1) (h 2) (h 3)).trans (congrArg _ (append_extract_bytes w))

/-- A word whose four bytes are written can be read. -/
theorem exists_memRead4_eq_ok {m : List Host.Cell} {i : WordIdx} (h : ∀ k, readByte m (byteAddr i k).val ≠ none) :
    ∃ w, memRead4 m i = .ok w := by
  rcases memRead4_cases m i with ⟨b0, b1, b2, b3, -, -, -, -, e⟩ | ⟨k, hk, -⟩
  · exact ⟨_, e⟩
  · exact absurd hk (h k)

/-- The word written is the word read back (20_memory.md R53). -/
theorem memRead4_memWrite4 (m : List Host.Cell) (i : WordIdx) (x : Word) : memRead4 (memWrite4 i x m) i = .ok x := by
  rw [memRead4_eq_ok]
  intro k
  match k with
  | 0 | 1 | 2 | 3 => simp [readByte_memWrite4]

/-- A byte written replaces its byte of the block word and leaves the other three (20_memory.md R54). -/
theorem memRead4_writeByte {m : List Host.Cell} {i : WordIdx} {w : Word} (h : memRead4 m i = .ok w) (k : Fin 4) (b : Byte) :
    ∃ w', memRead4 (writeByte (byteAddr i k).val b m) i = .ok w' ∧ w'.extractLsb' (24 - 8 * k.val) 8 = b ∧
      ∀ k' : Fin 4, k' ≠ k → w'.extractLsb' (24 - 8 * k'.val) 8 = w.extractLsb' (24 - 8 * k'.val) 8 := by
  rw [memRead4_eq_ok] at h
  have hnew (k' : Fin 4) : readByte (writeByte (byteAddr i k).val b m) (byteAddr i k').val =
      some (if k' = k then b else w.extractLsb' (24 - 8 * k'.val) 8) := by
    simp only [readByte_writeByte, byteAddr_inj, h, apply_ite some]
  obtain ⟨w', hw'⟩ := exists_memRead4_eq_ok (fun k' => by rw [hnew k']; simp)
  have hbytes (k' : Fin 4) : w'.extractLsb' (24 - 8 * k'.val) 8 = if k' = k then b else w.extractLsb' (24 - 8 * k'.val) 8 :=
    Option.some.inj ((memRead4_eq_ok.1 hw' k').symm.trans (hnew k'))
  exact ⟨w', hw', (hbytes k).trans (if_pos rfl), fun k' hk => (hbytes k').trans (if_neg hk)⟩

/-- Settles O22: a word by its four bytes, a byte by the word it is part of. -/
theorem byteAndWordViewsAgree : Obligations.ByteAndWordViewsAgree := by
  refine ⟨fun s i x hi => ?_, fun s i k din w hi hw => ?_⟩
  · have hx := memRead4_memWrite4 s.blk i x
    have ht : (s.setBlk (memWrite4 i x s.blk)).phase = .idle := hi
    exact ⟨_, _, exec_wrword_of_idle hi i x, hx, exec_rdword_of_ok ht hx, rfl⟩
  · obtain ⟨w', hw', hb⟩ := memRead4_writeByte hw k (din.extractLsb' 0 8)
    exact ⟨_, w', exec_wrbyte_of_idle hi _ din, hw', hb⟩

/-! ### The same write twice (20_memory.md R59) -/

theorem writeByte_writeByte {m : List Host.Cell} (h : blkWf m) (a : ByteIdx) (b : Byte) :
    writeByte a.val b (writeByte a.val b m) = writeByte a.val b m := by
  have h' := blkWf_writeByte h a.2 b
  refine blk_ext (blkWf_writeByte h' a.2 b) h' fun a' => ?_
  simp only [readByte_writeByte]
  split <;> rfl

theorem memWrite4_memWrite4 {m : List Host.Cell} (h : blkWf m) (i : WordIdx) (x : Word) :
    memWrite4 i x (memWrite4 i x m) = memWrite4 i x m := by
  have h' := blkWf_memWrite4 h i x
  refine blk_ext (blkWf_memWrite4 h' i x) h' fun a => ?_
  simp only [readByte_memWrite4]
  split_ifs <;> rfl

@[simp] theorem setLane_setLane {α : Type} (g : Lanes α) (j : LaneIdx) (x y : α) :
    setLane (setLane g j x) j y = setLane g j y :=
  lanes_ext fun k => by simp only [lane_setLane]; split <;> rfl

section Twice

variable (s : State)

@[simp] theorem State.setBlk_setBlk (m m' : List Host.Cell) : (s.setBlk m).setBlk m' = s.setBlk m' := rfl

@[simp] theorem State.writeHash_writeHash (i : StateIdx) (x y : Word) :
    (s.writeHash i x).writeHash i y = s.writeHash i y := by
  simp [State.writeHash]

@[simp] theorem State.writeLane_writeLane (r : VReg) (j : LaneIdx) (x y : Word) :
    (s.writeLane r j x).writeLane r j y = s.writeLane r j y := by
  simp [State.writeLane]

/-- The code of the first error stays (60_exceptions.md R230). -/
@[simp] theorem State.raiseError_raiseError (e e' : ErrorKind) : (s.raiseError e).raiseError e' = s.raiseError e := by
  simp [State.raiseError]

end Twice

/-- Settles O23, by what the command did the first time: the second time the same write or the same refusal follows. -/
theorem hostAccessIsIdempotent : Obligations.HostAccessIsIdempotent := by
  intro i s t hd hc hm h
  have hw := wf_of_destinations_eq_nil hd
  have e := exec_effect h
  have ht : t.phase = s.phase := e.sequencer_cases.elim And.left fun hcomp => absurd hcomp.2 hc
  cases e with
  | nothing => exact h
  | readStatus hi => subst hi; rfl
  | read x hp hx =>
    rcases hx with ⟨idx, rfl, rfl⟩ | ⟨idx, rfl, hx⟩ | ⟨r, j, rfl, rfl⟩
    · exact exec_rdstate_of_idle (ht.trans hp) idx
    · exact exec_rdword_of_ok (ht.trans hp) hx
    · exact exec_rdv_of_idle (ht.trans hp) r j
  | writeState idx din hp hi =>
    rw [hi, exec_wrstate_of_idle (ht.trans hp), State.writeHash_writeHash]
  | writeByte a din hp hi =>
    rw [hi, exec_wrbyte_of_idle (ht.trans hp), State.setBlk_setBlk, State.setBlk_blk, writeByte_writeByte hm]
  | writeWord idx din hp hi =>
    rw [hi, exec_wrword_of_idle (ht.trans hp), State.setBlk_setBlk, State.setBlk_blk, memWrite4_memWrite4 hm]
  | writeOneLane r j din hp hi =>
    rw [hi, exec_wrv_of_idle (ht.trans hp), State.writeLane_writeLane]
  | startCompression _ _ hi => exact absurd hi hc
  | datapath vd _ _ hv => cases hd.symm.trans hv
  | datapathPair _ _ _ _ _ _ _ hi => subst hi; cases hd
  | refusedBusy hb hn hr => rw [exec_of_busy (ht ▸ hb) hw hn hr, State.raiseError_raiseError]
  | refusedIllegal hi => cases hw.symm.trans hi

end Sys2Proof.Machine
end

section
/-! ## Encoding and decoding (30_encoding.md R70 to R80) -/

namespace Sys2Proof

open Machine

/-! ### The encoder, and the operands read back from its word (R71 to R76) -/

/-- The opcode is not seen in the fields below it. -/
theorem extract_encodeCmd (i : Instr) {lo w : Nat} (h : lo + w ≤ 24) :
    (encodeCmd i).extractLsb' lo w = (operandBits i).extractLsb' lo w := by
  have hop : i.op.opcode < 2 ^ 8 := by cases i.op <;> decide
  rw [encodeCmd, BitVec.extractLsb'_or, extract_place_apart hop (.inr h), BitVec.zero_or]

/-- The operands in an instruction's own words are the instruction's: each is read back from its place, and the others lie
apart from it. -/
theorem assemble_encode (i : Instr) : assemble i.op (encodeCmd i) (encodeDin i) = i := by
  cases i <;>
    simp (disch := omega) [assemble, Instr.op, encodeDin, field4, extract_encodeCmd, operandBits, BitVec.extractLsb'_or,
      extract_place_self, extract_place_apart (w := 4), extract_place_apart (w := 5)]

/-- Every instruction's word matches its own row (R77). -/
theorem encodeCmd_matches (i : Instr) : (rowOf i.op).matchesWord (encodeCmd i) = true := by
  cases i with
  | nop => exact Laws.RowMatch.nop
  | rdstatus => exact Laws.RowMatch.rdstatus
  | wrstate idx din => exact Laws.RowMatch.wrstate idx din
  | rdstate idx => exact Laws.RowMatch.rdstate idx
  | wrbyte idx din => exact Laws.RowMatch.wrbyte idx din
  | wrword idx din => exact Laws.RowMatch.wrword idx din
  | rdword idx => exact Laws.RowMatch.rdword idx
  | wrv v j din => exact Laws.RowMatch.wrv v j din
  | rdv v j => exact Laws.RowMatch.rdv v j
  | compress => exact Laws.RowMatch.compress
  | vsrl vd va n => exact Laws.RowMatch.vsrl vd va n
  | vsll vd va n => exact Laws.RowMatch.vsll vd va n
  | vor vd va vb => exact Laws.RowMatch.vor vd va vb
  | vxor vd va vb => exact Laws.RowMatch.vxor vd va vb
  | vadd vd va vb => exact Laws.RowMatch.vadd vd va vb
  | valign vd p n => exact Laws.RowMatch.valign vd p n
  | vmsg1 vd p n => exact Laws.RowMatch.vmsg1 vd p n
  | vmsg2 vd m l => exact Laws.RowMatch.vmsg2 vd m l
  | vsched vd w0 w1 w2 w3 => exact Laws.RowMatch.vsched vd w0 w1 w2 w3
  | vswap vd va => exact Laws.RowMatch.vswap vd va
  | vaddk vd va g => exact Laws.RowMatch.vaddk vd va g
  | vrnd2 vd c a k => exact Laws.RowMatch.vrnd2 vd c a k
  | vrnd4 a c w g => exact Laws.RowMatch.vrnd4 a c w g

/-! ### The decoder, by the row a word matches (R77 to R79) -/

/-- A row of the map is the row of its name. -/
theorem rowOf_of_mem {r : OpcodeRow} (h : r ∈ opcodeTable) : rowOf r.op = r := by
  have key : ∀ r ∈ opcodeTable, rowOf r.op = r := by decide
  exact key r h

/-- Every word matches the row of one name, or no row. -/
theorem findRow_cases (cmd : Word) :
    (∃ op, (rowOf op).matchesWord cmd = true) ∨ findRow cmd = none := by
  cases h : findRow cmd with
  | none => exact .inr rfl
  | some r =>
    obtain ⟨hr, hm⟩ := findRow_sound h
    exact .inl ⟨r.op, (rowOf_of_mem hr).symm ▸ hm⟩

section Matching

variable {op : Op} {cmd : Word}

/-- A word that matches the row of a name carries that command's opcode. -/
theorem opcode_of_matches (h : (rowOf op).matchesWord cmd = true) : cmd.extractLsb' 24 8 = BitVec.ofNat 8 op.opcode :=
  (opcode_of_matchesWord (rowOf_mem op) h).trans (rowOf_opcode op)

/-- A word that matches a row decodes to the row's command, unless that is a VRND4 of one register twice. -/
theorem decode_of_matches (h : (rowOf op).matchesWord cmd = true) (din : Word) : decode cmd din =
    if (assemble op cmd din).wf then .ok (assemble op cmd din) else .error .vrnd4SameRegister := by
  simp only [decode, findRow_eq_some.2 ⟨rowOf_mem op, h⟩, rowOf_op]

end Matching

theorem decode_of_no_row {cmd : Word} (h : findRow cmd = none) (din : Word) :
    decode cmd din = .error (if opcodeMapped cmd then .mustBeZeroBit else .reservedOpcode) := by
  simp only [decode, h]

/-- A legal word is the operands of the one row it matches. -/
theorem decode_eq_ok {cmd din : Word} {i : Instr} (h : decode cmd din = .ok i) :
    ∃ op, (rowOf op).matchesWord cmd = true ∧ i = assemble op cmd din := by
  rcases findRow_cases cmd with ⟨op, hm⟩ | hn
  · rw [decode_of_matches hm] at h
    split at h
    · exact ⟨op, hm, (Except.ok.inj h).symm⟩
    · cases h
  · rw [decode_of_no_row hn] at h
    cases h

/-- Settles O1: the encoded word matches the instruction's row, and its operands are read back. -/
theorem decodeAfterEncodeIsIdentity : Obligations.DecodeAfterEncodeIsIdentity := by
  intro i hw
  rw [encode, decode_of_matches (encodeCmd_matches i), assemble_encode, if_pos hw]

/-! ### A legal word put together again from its instruction (R71 to R78) -/

/-- A field of the word put back in its place is the word under the field's mask. -/
theorem place_extract (cmd : Word) {lo w : Nat} (h : lo + w ≤ 32) :
    place (cmd.extractLsb' lo w).toNat lo = cmd &&& (BitVec.allOnes w).setWidth 32 <<< lo := by
  apply BitVec.eq_of_getLsbD_eq
  intro i hi
  rw [getLsbD_place, BitVec.testBit_toNat, BitVec.getLsbD_extractLsb', BitVec.getLsbD_and, BitVec.getLsbD_shiftLeft,
    BitVec.getLsbD_setWidth, BitVec.getLsbD_allOnes]
  by_cases hlo : lo ≤ i
  · simp [hi, hlo, Nat.not_lt.2 hlo, Nat.add_sub_cancel' hlo, Bool.and_comm, show i - lo < 32 by omega]
  · simp [hlo, Nat.lt_of_not_le hlo]

/-- The operand fields of a command are the bits its mask leaves free (R77). -/
theorem operandBits_assemble (op : Op) (cmd din : Word) :
    operandBits (assemble op cmd din) = cmd &&& ~~~(rowOf op).mask := by
  cases op with
  | nop | rdstatus | compress => exact BitVec.and_zero.symm
  | _ =>
    simp (disch := decide) only [operandBits, assemble, field4, BitVec.val_toFin, place_extract,
      ← BitVec.and_or_distrib_left]
    exact congrArg (cmd &&& ·) (by decide)

theorem op_assemble (op : Op) (cmd din : Word) : (assemble op cmd din).op = op := by cases op <;> rfl

theorem place_opcode (op : Op) : place op.opcode 24 = (rowOf op).pattern := by cases op <;> rfl

/-- A word is its row's pattern under the mask and its operands elsewhere, so no bit of it is lost. -/
theorem encodeCmd_assemble {op : Op} {cmd : Word} (h : (rowOf op).matchesWord cmd = true) (din : Word) :
    encodeCmd (assemble op cmd din) = cmd := by
  have hp : cmd &&& (rowOf op).mask = (rowOf op).pattern := by simpa [OpcodeRow.matchesWord] using h
  rw [encodeCmd, op_assemble, place_opcode, operandBits_assemble, ← hp, ← BitVec.and_or_distrib_left, BitVec.or_not_self,
    BitVec.and_allOnes]

/-- A write command keeps the data word it is given (R76). -/
theorem encodeDin_assemble {op : Op} {cmd din : Word} (h : (assemble op cmd din).isWrite = true) :
    encodeDin (assemble op cmd din) = din := by
  cases op with
  | wrstate | wrbyte | wrword | wrv => rfl
  | _ => cases h

/-- Settles O2: the word's row and operands, put together, are the word. -/
theorem legalWordHasOneEncoding : Obligations.LegalWordHasOneEncoding := by
  intro cmd din i h
  obtain ⟨op, hm, rfl⟩ := decode_eq_ok h
  exact ⟨wf_of_decode h, encodeCmd_assemble hm din, encodeDin_assemble⟩

/-! ### Which words are legal (R78, R79) -/

theorem matchesWord_iff {r : OpcodeRow} {cmd : Word} : r.matchesWord cmd = true ↔ cmd &&& r.mask = r.pattern := beq_iff_eq

/-- No two rows match one word: their opcodes differ, and every mask covers the opcode. -/
theorem row_unique {cmd : Word} {r r' : OpcodeRow} (hr : r ∈ opcodeTable) (hr' : r' ∈ opcodeTable)
    (h : cmd &&& r.mask = r.pattern) (h' : cmd &&& r'.mask = r'.pattern) : r = r' :=
  row_eq_of_opcode hr hr'
    ((opcode_of_matchesWord hr (matchesWord_iff.2 h)).symm.trans (opcode_of_matchesWord hr' (matchesWord_iff.2 h')))

/-- Of the commands a word can spell, only VRND4 with `vd = va` is illegal. -/
theorem wf_assemble (op : Op) (cmd din : Word) : (assemble op cmd din).wf = true ↔
    ¬ (op = .vrnd4 ∧ cmd.extractLsb' 20 4 = cmd.extractLsb' 16 4) := by
  cases op with
  | vrnd4 =>
    have hf : field4 cmd 20 = field4 cmd 16 ↔ cmd.extractLsb' 20 4 = cmd.extractLsb' 16 4 := BitVec.toFin_inj
    simp [assemble, Instr.wf, hf]
  | _ => simp [assemble, Instr.wf]

theorem opcode_eq_vrnd4 (op : Op) : BitVec.ofNat 8 op.opcode = 0x43#8 ↔ op = .vrnd4 := by cases op <;> decide

/-- A word that matches a row is legal unless it is a VRND4 with `vd = va`. -/
theorem legal_iff_of_matches {op : Op} {cmd : Word} (h : (rowOf op).matchesWord cmd = true) (din : Word) :
    (∃ i, decode cmd din = .ok i) ↔ ¬ (cmd.extractLsb' 24 8 = 0x43#8 ∧ cmd.extractLsb' 20 4 = cmd.extractLsb' 16 4) := by
  rw [decode_of_matches h, opcode_of_matches h, opcode_eq_vrnd4, ← wf_assemble op cmd din]
  split
  · next hw => simp [hw]
  · next hw => simp [hw]

/-- A word is legal when it matches one row and is no VRND4 with `vd = va`. -/
theorem legal_iff (cmd din : Word) : (∃ i, decode cmd din = .ok i) ↔
    (∃! r, r ∈ opcodeTable ∧ cmd &&& r.mask = r.pattern) ∧
      ¬ (cmd.extractLsb' 24 8 = 0x43#8 ∧ cmd.extractLsb' 20 4 = cmd.extractLsb' 16 4) := by
  constructor
  · rintro ⟨i, h⟩
    obtain ⟨op, hm, -⟩ := decode_eq_ok h
    have hrow := matchesWord_iff.1 hm
    exact ⟨⟨rowOf op, ⟨rowOf_mem op, hrow⟩, fun r hr => row_unique hr.1 (rowOf_mem op) hr.2 hrow⟩,
      (legal_iff_of_matches hm din).1 ⟨i, h⟩⟩
  · rintro ⟨⟨r, ⟨hr, hm⟩, -⟩, hn⟩
    have hm' : (rowOf r.op).matchesWord cmd = true := by rw [rowOf_of_mem hr, matchesWord_iff, hm]
    exact (legal_iff_of_matches hm' din).2 hn

/-- An illegal word raises ILLEGAL and does nothing else (R78). -/
theorem runCommand_of_illegal {cmd din : Word} (h : ∀ i, decode cmd din ≠ .ok i) (s : State) :
    runCommand cmd din s = .next (s.raiseError .illegal) := by
  cases hd : decode cmd din with
  | ok i => exact absurd hd (h i)
  | error r => simp only [runCommand, hd]

/-- A word whose opcode no row has is reserved (R79). -/
theorem decode_of_unmapped {cmd : Word} (h : ∀ r ∈ opcodeTable, r.pattern.extractLsb' 24 8 ≠ cmd.extractLsb' 24 8)
    (din : Word) : decode cmd din = .error .reservedOpcode := by
  have hn : findRow cmd = none :=
    findRow_eq_none.2 fun r hr => Bool.eq_false_iff.2 fun hm => h r hr (opcode_of_matchesWord hr hm).symm
  have hu : opcodeMapped cmd = false := by simpa [opcodeMapped] using h
  rw [decode_of_no_row hn, hu]
  rfl

/-- Every opcode of the map lies outside the reserved ranges of R79. -/
theorem opcode_not_reserved {r : OpcodeRow} (h : r ∈ opcodeTable) :
    let op := (r.pattern.extractLsb' 24 8).toNat
    ¬ ((0x09 ≤ op ∧ op ≤ 0x0F) ∨ (0x11 ≤ op ∧ op ≤ 0x1F) ∨ (0x25 ≤ op ∧ op ≤ 0x2F) ∨ (0x34 ≤ op ∧ op ≤ 0x3F) ∨ 0x44 ≤ op) := by
  revert r
  decide

/-- Settles O3, each clause by what the decoder does with the row a word matches. -/
theorem wordIsLegalWhenOneRowMatches : Obligations.WordIsLegalWhenOneRowMatches := by
  refine ⟨legal_iff, fun _ _ s h => runCommand_of_illegal h s, fun _ _ _ hr hr' h h' => row_unique hr hr' h h',
    fun cmd din hop => decode_of_unmapped (fun r hr e => ?_) din⟩
  rw [← e] at hop
  exact opcode_not_reserved hr hop

/-! ### The data word (R70, R76) -/

/-- Only the rows of the four write commands hand on the data word. -/
theorem assemble_din {op : Op} (h : BitVec.ofNat 8 op.opcode ∉ [0x02#8, 0x04#8, 0x05#8, 0x07#8]) (cmd din din' : Word) :
    assemble op cmd din = assemble op cmd din' := by
  cases op with
  | wrstate | wrbyte | wrword | wrv => exact absurd (by decide) h
  | _ => rfl

/-- Settles O4: the operands without `din`, and the one byte WRBYTE stores. -/
theorem dataWordBitsThatAreIgnored : Obligations.DataWordBitsThatAreIgnored := by
  refine ⟨fun cmd din din' h => ?_, fun a din din' s h => ?_⟩
  · rcases findRow_cases cmd with ⟨op, hm⟩ | hn
    · rw [opcode_of_matches hm] at h
      rw [decode_of_matches hm, decode_of_matches hm, assemble_din h cmd din din']
    · rw [decode_of_no_row hn, decode_of_no_row hn]
  · simp only [exec, execWrbyte, h]

/-! ### Words of the examples (R81) -/

/-- Settles O5: the legal words are the encodings of their commands; of the illegal ones the first matches no row, and the
second is a VRND4 of one register twice. -/
theorem exampleWordsDecode : Obligations.ExampleWordsDecode :=
  ⟨decodeAfterEncodeIsIdentity (.wrstate 3 0xa54ff53a) rfl, decodeAfterEncodeIsIdentity (.wrbyte 63 0x18) rfl,
    decodeAfterEncodeIsIdentity (.wrv 5 3 0x61626380) rfl, decodeAfterEncodeIsIdentity .compress rfl,
    decodeAfterEncodeIsIdentity (.vsll 2 0 25) rfl, decodeAfterEncodeIsIdentity (.vsched 4 0 1 2 3) rfl,
    decodeAfterEncodeIsIdentity (.vrnd2 11 12 13 10) rfl, decodeAfterEncodeIsIdentity (.vrnd4 13 12 0 0) rfl,
    decode_of_no_row (by decide) 0, decode_of_matches (op := .vrnd4) (by decide) 0⟩

end Sys2Proof
end

section
/-! ## The pseudo-instructions (30_encoding.md R82) -/

namespace Sys2Proof.Machine

/-! ### The expansions, command by command (40_lane_group.md R101 to R104, 44_host.md R208) -/

section Commands

variable {s : State}

theorem exec_vsrl_of_idle (h : s.phase = .idle) (vd va : VReg) (n : Shamt) :
    exec (.vsrl vd va n) s = .next (s.writeV vd (shiftRightLanes (s.vGroup va) n.val)) := whenIdle_of_idle h _

theorem exec_vsll_of_idle (h : s.phase = .idle) (vd va : VReg) (n : Shamt) :
    exec (.vsll vd va n) s = .next (s.writeV vd (shiftLeftLanes (s.vGroup va) n.val)) := whenIdle_of_idle h _

theorem exec_vor_of_idle (h : s.phase = .idle) (vd va vb : VReg) :
    exec (.vor vd va vb) s = .next (s.writeV vd (orLanes (s.vGroup va) (s.vGroup vb))) := whenIdle_of_idle h _

theorem exec_vxor_of_idle (h : s.phase = .idle) (vd va vb : VReg) :
    exec (.vxor vd va vb) s = .next (s.writeV vd (xorLanes (s.vGroup va) (s.vGroup vb))) := whenIdle_of_idle h _

theorem runCommands_vmov (h : s.phase = .idle) (d a : VReg) :
    runCommands (expandPseudo (.vmov d a)) s = .next (s.writeV d (s.vGroup a)) := by
  have hor : orLanes (s.vGroup a) (s.vGroup a) = s.vGroup a := lanes_ext fun j => by simp
  simp only [expandPseudo, runCommands, exec_vor_of_idle h, hor]

theorem runCommands_vzero (h : s.phase = .idle) (d a : VReg) :
    runCommands (expandPseudo (.vzero d a)) s = .next (s.writeV d ⟨0, 0, 0, 0⟩) := by
  have hxor : xorLanes (s.vGroup a) (s.vGroup a) = ⟨0, 0, 0, 0⟩ := by simp [xorLanes, lanewise]
  simp only [expandPseudo, runCommands, exec_vxor_of_idle h, hxor]

/-- The right shift goes to `vt`, so the left shift finds `a` as it was; then `d` holds the left shift and `vt` the right. -/
theorem runCommands_vrotr (h : s.phase = .idle) (d : VReg) {a vt : VReg} (n : Shamt) (hta : vt ≠ a) (htd : vt ≠ d) :
    runCommands (expandPseudo (.vrotr d a n vt)) s =
      .next (((s.writeV vt (shiftRightLanes (s.vGroup a) n.val)).writeV d
        (shiftLeftLanes (s.vGroup a) (oppositeShamt n).val)).writeV d
        (orLanes (shiftLeftLanes (s.vGroup a) (oppositeShamt n).val) (shiftRightLanes (s.vGroup a) n.val))) := by
  simp only [expandPseudo, runCommands, exec_vsrl_of_idle, exec_vsll_of_idle, exec_vor_of_idle, State.writeV_phase, h,
    State.vGroup_writeV, hta.symm, htd, if_true, if_false]

/-- The two shifts together are the rotation (00_scope.md R9); without `1 ≤ n` the left shift would be by 0. -/
theorem lane_rotate (g : LaneGroup) (j : LaneIdx) {n : Shamt} (hn : 1 ≤ n.val) :
    lane (orLanes (shiftLeftLanes g (oppositeShamt n).val) (shiftRightLanes g n.val)) j = (lane g j).rotateRight n.val := by
  have ho : (oppositeShamt n).val = 32 - n.val := Nat.mod_eq_of_lt (by omega)
  rw [lane_orLanes, lane_shiftLeftLanes, lane_shiftRightLanes, ho, BitVec.or_comm, BitVec.rotateRight_def,
    Nat.mod_eq_of_lt n.2]

/-- Writes to all four lanes leave the group of the four words. -/
theorem State.vGroup_writeLane_all (s : State) (v : VReg) (x0 x1 x2 x3 : Word) :
    ((((s.writeLane v 0 x0).writeLane v 1 x1).writeLane v 2 x2).writeLane v 3 x3).vGroup v = ⟨x0, x1, x2, x3⟩ := by
  simp [State.vGroup, setLane]

theorem runCommands_wrlanes (h : s.phase = .idle) (v : VReg) (x0 x1 x2 x3 : Word) :
    runCommands (expandPseudo (.wrlanes v x0 x1 x2 x3)) s =
      .next ((((s.writeLane v 0 x0).writeLane v 1 x1).writeLane v 2 x2).writeLane v 3 x3) := by
  simp only [expandPseudo, runCommands, exec_wrv_of_idle, State.writeLane_phase, h]

end Commands

/-! ### WAITIDLE (43_compressor.md R170, R172) -/

/-- The sequencer steps a running compression still needs (43_compressor.md R170). -/
def State.turnsLeft (s : State) : Nat :=
  match s.phase with
  | .idle => 0
  | .load => 18
  | .rounds => 17 - s.grp.toNat
  | .final => 1

/-- The sequencer's turn of a legal busy state completes, and one step less is left. -/
theorem State.Legal.turn {s : State} (h : s.Legal) (hb : s.phase ≠ .idle) :
    ∃ t, sequencerTurn s = .next t ∧ t.Legal ∧ t.turnsLeft + 1 = s.turnsLeft := by
  cases hp : s.phase with
  | idle => exact absurd hp hb
  | load =>
    obtain ⟨b, hblk⟩ := holdsBlock_of_blkFull (h.busyBlk hb)
    have e := (sequencerTurn_load hp).trans (loadStep_of_holds hblk)
    exact ⟨_, e, (sequencerTurn_effect e).legal h, by simp [State.turnsLeft, hp]⟩
  | rounds =>
    have hs : s.grp.toNat < 16 := by simpa only [State.SequencerLegal, hp] using h.sequencer
    have e := sequencerTurn_rounds (g := ⟨s.grp.toNat, hs⟩) hp rfl
    refine ⟨_, e, (sequencerTurn_effect e).legal h, ?_⟩
    rcases Nat.lt_or_ge s.grp.toNat 15 with hlt | hge
    · obtain ⟨hp', hg'⟩ := roundsStep_of_lt s (g := ⟨s.grp.toNat, hs⟩) hlt
      simp only [State.turnsLeft, hp, hp', hg']
      omega
    · obtain ⟨hp', -⟩ := roundsStep_of_last s (g := ⟨s.grp.toNat, hs⟩) (by simp only; omega)
      simp only [State.turnsLeft, hp, hp']
      omega
  | final =>
    have e := sequencerTurn_final hp
    exact ⟨_, e, (sequencerTurn_effect e).legal h, by simp [State.turnsLeft, hp]⟩

theorem State.turnsLeft_le (s : State) : s.turnsLeft ≤ 18 := by
  unfold State.turnsLeft
  split <;> omega

/-- DOUT has no part in legality. -/
theorem State.Legal.setDout {s : State} (h : s.Legal) (x : Word) : (s.setDout x).Legal :=
  ⟨h.sequencer, h.error, h.blk, h.busyBlk⟩

/-- A poll that reads idle ends WAITIDLE. -/
theorem waitIdle_of_idle {s : State} (h : s.phase = .idle) (fuel : Nat) :
    waitIdle (fuel + 1) s = .next (s.setDout s.status) := by
  have hd : (s.setDout s.status).dout.getLsbD 0 = false := (status_bit0 s).trans ((State.busy_eq_false s).2 h)
  simp only [waitIdle, execRdstatus, hd, Bool.false_eq_true, if_false]

/-- A poll that reads busy is followed by a turn of the sequencer. -/
theorem waitIdle_of_busy {s t : State} (h : s.phase ≠ .idle) (ht : sequencerTurn (s.setDout s.status) = .next t)
    (fuel : Nat) : waitIdle (fuel + 1) s = waitIdle fuel t := by
  have hd : (s.setDout s.status).dout.getLsbD 0 = true := (status_bit0 s).trans ((State.busy_eq_true s).2 h)
  simp only [waitIdle, execRdstatus, hd, if_true, ht]

/-- With a poll for each step left and one more, WAITIDLE returns idle. -/
theorem waitIdle_returns_idle {s : State} {fuel : Nat} (h : s.Legal) (hf : s.turnsLeft < fuel) :
    ∃ t, waitIdle fuel s = .next t ∧ t.phase = .idle ∧ t.dout.getLsbD 0 = false := by
  induction fuel generalizing s with
  | zero => omega
  | succ fuel ih =>
    by_cases hi : s.phase = .idle
    · exact ⟨_, waitIdle_of_idle hi fuel, hi, (status_bit0 s).trans ((State.busy_eq_false s).2 hi)⟩
    · obtain ⟨u, hu, hl, hn⟩ := (h.setDout s.status).turn hi
      have hs : (s.setDout s.status).turnsLeft = s.turnsLeft := rfl
      rw [waitIdle_of_busy hi hu]
      exact ih hl (by omega)

/-- Settles O50: each expansion command by command, and WAITIDLE by the steps left. -/
theorem pseudoInstructionsCompute : Obligations.PseudoInstructionsCompute := by
  refine ⟨fun s d a h => ⟨⟨_, runCommands_vmov h d a, State.vGroup_writeV_self ..⟩,
    ⟨_, runCommands_vzero h d a, State.vGroup_writeV_self ..⟩, fun n vt hn hta htd => ?_,
    fun x0 x1 x2 x3 => ⟨_, runCommands_wrlanes h d x0 x1 x2 x3, State.vGroup_writeLane_all ..⟩⟩,
    fun s h => waitIdle_returns_idle h (Nat.lt_succ_of_le s.turnsLeft_le)⟩
  refine ⟨_, runCommands_vrotr h d n hta htd, fun j => ?_, fun r hrd hrt => ?_⟩
  · rw [State.vLane_writeV, if_pos rfl, lane_rotate _ j hn]
    rfl
  · simp only [State.vGroup_writeV, hrd, hrt, if_false]

end Sys2Proof.Machine
end

section
/-! ## The lane-group commands, functions and units (40_lane_group.md) -/

namespace Sys2Proof.Machine

open Claims

/-! ### The one word of a command that carries no data word (30_encoding.md R74 to R76) -/

/-- Format R as its fields, each in its place (R75). -/
theorem formatR_eq_place {op vd va vb vc ve imm4 : Nat} (hop : op < 2 ^ 8) (hd : vd < 16) (ha : va < 16) (hb : vb < 16)
    (hc : vc < 16) (he : ve < 16) (hi : imm4 < 16) : formatR op vd va vb vc ve imm4 =
      place op 24 ||| (place vd 20 ||| place va 16 ||| place vb 12 ||| place vc 8 ||| place ve 4 ||| place imm4 0) := by
  have hw : (formatR op vd va vb vc ve imm4).toNat = (BitVec.ofNat 8 op ++ BitVec.ofNat 4 vd ++ BitVec.ofNat 4 va ++
    BitVec.ofNat 4 vb ++ BitVec.ofNat 4 vc ++ BitVec.ofNat 4 ve ++ BitVec.ofNat 4 imm4 :
      BitVec (8 + 4 + 4 + 4 + 4 + 4 + 4)).toNat := rfl
  apply BitVec.eq_of_toNat_eq
  rw [hw]
  simp (disch := omega) [place, Nat.mod_eq_of_lt, Nat.shiftLeft_or_distrib, ← Nat.shiftLeft_add, Nat.or_assoc,
    -Nat.reduceAdd]

/-- Format S as its fields, each in its place (R74). -/
theorem formatS_eq_place {op vd va n : Nat} (hop : op < 2 ^ 8) (hd : vd < 16) (ha : va < 16) (hn : n < 32) :
    formatS op vd va n = place op 24 ||| (place vd 20 ||| place va 16 ||| place n 0) := by
  have hw : (formatS op vd va n).toNat = (BitVec.ofNat 8 op ++ BitVec.ofNat 4 vd ++ BitVec.ofNat 4 va ++ 0#11 ++
    BitVec.ofNat 5 n : BitVec (8 + 4 + 4 + 11 + 5)).toNat := rfl
  apply BitVec.eq_of_toNat_eq
  rw [hw]
  simp (disch := omega) [place, Nat.mod_eq_of_lt, Nat.shiftLeft_or_distrib, ← Nat.shiftLeft_add, Nat.or_assoc,
    -Nat.reduceAdd]

@[simp] theorem place_zero (lo : Nat) : place 0 lo = 0 := by simp [place]

/-- The opcodes of the write commands belong to no other command (R76, R77). -/
theorem opcode_of_not_isWrite {i : Instr} (h : i.isWrite = false) :
    BitVec.ofNat 8 i.op.opcode ∉ [0x02#8, 0x04#8, 0x05#8, 0x07#8] := by
  cases i with
  | wrstate | wrbyte | wrword | wrv => cases h
  | _ => simp [Instr.op, Op.opcode]

/-- A legal command that reads no data word is spelled by its encoded word alone, whatever the data word with it. -/
theorem spelledBy_encodeCmd {i : Instr} (hwf : i.wf = true) (hw : i.isWrite = false) : SpelledBy i (encodeCmd i) := by
  intro cmd din
  constructor
  · intro h
    obtain ⟨-, hcmd, -⟩ := legalWordHasOneEncoding cmd din i h
    exact hcmd.symm
  · rintro rfl
    have hm := encodeCmd_matches i
    have hop := opcode_of_matches hm ▸ opcode_of_not_isWrite hw
    exact (dataWordBitsThatAreIgnored.1 _ din (encodeDin i) hop).trans (decodeAfterEncodeIsIdentity i hwf)

/-! ### A datapath command with one result (R100, 70_reset_and_hazards.md R264) -/

theorem firstUnwritten_eq_none {i : Instr} {s : State} : firstUnwritten i s = none ↔ AllWritten (cellsRead i) s := by
  simp [firstUnwritten, AllWritten]

/-- On an unwritten one of the cells it reads the checked machine stops a legal command. -/
theorem faultsOnUnwritten_cellsRead {i : Instr} (hwf : i.wf = true) : FaultsOnUnwritten i (cellsRead i) := by
  intro s hi hn
  cases h : firstUnwritten i s with
  | none => exact absurd (firstUnwritten_eq_none.1 h) hn
  | some c =>
    exact ⟨c, List.mem_of_find?_eq_some h, by simpa using List.find?_some h, checkedExec_of_unwritten hwf hi h⟩

theorem onlyRegisters_writeV (s : State) (vd : VReg) (g : LaneGroup) : OnlyRegisters [vd] s (s.writeV vd g) where
  marked r hr j := by simp [State.cellWritten_writeV, List.mem_singleton.1 hr]
  others r hr := by
    have hne : r ≠ vd := by simpa using hr
    exact ⟨by rw [State.vGroup_writeV, if_neg hne], fun j => by simp [State.cellWritten_writeV, hne]⟩
  memory _ := rfl
  rest := rfl

/-- The rule of a datapath command, from the one word it has, the cells it reads and the result it writes. -/
theorem datapathRule_of_writeResult {i : Instr} {word : Word} {vd : VReg} {reads : List StateCell}
    {result : State → LaneGroup} (hwf : i.wf = true) (hw : i.isWrite = false) (hword : encodeCmd i = word)
    (hreads : cellsRead i = reads) (hexec : ∀ s, exec i s = writeResult s vd (result s)) :
    DatapathRule i word vd reads result := by
  subst hword hreads
  refine ⟨spelledBy_encodeCmd hwf hw, fun s hi hr => ?_, faultsOnUnwritten_cellsRead hwf, fun s hb => ?_⟩
  · have hnext : exec i s = .next (s.writeV vd (result s)) := (hexec s).trans (whenIdle_of_idle hi _)
    exact ⟨_, hnext, (checkedExec_of_written (firstUnwritten_eq_none.2 hr)).trans hnext, State.vGroup_writeV_self ..,
      onlyRegisters_writeV ..⟩
  · have hnext : exec i s = .next (s.raiseError .busy) := (hexec s).trans (whenIdle_of_busy hb _)
    exact ⟨hnext, (checkedExec_of_busy hb).trans hnext⟩

/-- The word of a command of format S (R74). -/
theorem encodeCmd_formatS {i : Instr} {op : Nat} {vd va : VReg} {n : Shamt} (hop : op < 2 ^ 8)
    (h : encodeCmd i = place op 24 ||| (place vd 20 ||| place va 16 ||| place n 0)) :
    encodeCmd i = formatS op vd va n := h.trans (formatS_eq_place hop vd.2 va.2 n.2).symm

/-- The word of a command of format R with the three registers `vd`, `va`, `vb` and all else 0 (R75). -/
theorem encodeCmd_formatR {i : Instr} {op : Nat} {vd va vb : VReg} (hop : op < 2 ^ 8)
    (h : encodeCmd i = place op 24 ||| (place vd 20 ||| place va 16 ||| place vb 12)) :
    encodeCmd i = formatR op vd va vb 0 0 0 := by
  rw [h, formatR_eq_place hop vd.2 va.2 vb.2 (by decide) (by decide) (by decide)]
  simp

/-- Settles O24: each lane of the group shifted is the lane shifted. -/
theorem shiftsMoveEachLane : Obligations.ShiftsMoveEachLane := fun _ _ _ =>
  ⟨datapathRule_of_writeResult rfl rfl (encodeCmd_formatS (by decide) rfl) rfl fun _ => rfl,
    datapathRule_of_writeResult rfl rfl (encodeCmd_formatS (by decide) rfl) rfl fun _ => rfl⟩

/-- Settles O25: each lane of the groups combined is the two lanes combined. -/
theorem bitwiseCommandsCombineLanes : Obligations.BitwiseCommandsCombineLanes := fun _ _ _ =>
  ⟨datapathRule_of_writeResult rfl rfl (encodeCmd_formatR (by decide) rfl) rfl fun _ => rfl,
    datapathRule_of_writeResult rfl rfl (encodeCmd_formatR (by decide) rfl) rfl fun _ => rfl⟩

/-- The sum of two words as naturals, reduced modulo 2^32, is their sum as words (R105). -/
theorem ofNat_toNat_add_toNat_mod (x y : Word) : BitVec.ofNat 32 ((x.toNat + y.toNat) % 2 ^ 32) = x + y := by
  apply BitVec.eq_of_toNat_eq
  simp

/-- Settles O26: each lane of the sum is the sum of the two lanes, which keeps no carry. -/
theorem vaddAddsLanesModulo : Obligations.VaddAddsLanesModulo := fun _ _ _ =>
  datapathRule_of_writeResult rfl rfl (encodeCmd_formatR (by decide) rfl) rfl fun s => by
    simp only [ofNat_toNat_add_toNat_mod]
    rfl

/-! ### The rotation (R106) -/

theorem rotr_eq_rotateRight (x : Word) {n : Nat} (h : n ≤ 31) : rotr x n = x.rotateRight n := by
  rw [rotr, BitVec.rotateRight_def, Nat.mod_eq_of_lt (by omega)]

@[simp] theorem lane_rotateRightLanes (a : LaneGroup) (n : Nat) (j : LaneIdx) :
    lane (rotateRightLanes a n) j = rotr (lane a j) n := by
  simp [rotateRightLanes, rotr]

/-- Settles O27: the rotation of one word, and lane by lane of a group. -/
theorem rotationFromPrimitives : Obligations.RotationFromPrimitives := fun n _ h =>
  ⟨fun x => rotr_eq_rotateRight x h,
    fun a j => ⟨rfl, (lane_rotateRightLanes a n j).trans (rotr_eq_rotateRight _ h)⟩⟩

/-! ### The units on their 128-bit buses (R108, 41_schedule.md R128, 42_round.md R150) -/

/-- Lane `j` of the group on a bus is bits `[32j+31 : 32j]`. -/
theorem lane_unpackGroup (b : BitVec 128) (j : LaneIdx) : lane (unpackGroup b) j = b.extractLsb' (32 * j.val) 32 := by
  match j with
  | 0 | 1 | 2 | 3 => rfl

theorem extract_packGroup (g : LaneGroup) (j : LaneIdx) : (packGroup g).extractLsb' (32 * j.val) 32 = lane g j := by
  rw [← lane_unpackGroup, unpackGroup_packGroup]

/-- Settles O28: each unit takes the groups off its buses, computes its function and puts the result on its bus. -/
theorem unitsComputeTheFunctions : Obligations.UnitsComputeTheFunctions := by
  refine ⟨extract_packGroup, fun sel a b n j => ?_, fun w0 w1 w2 w3 => ?_, fun cdgh abef wk => ?_⟩
  · unfold laneUnit
    rw [extract_packGroup, ← lane_unpackGroup, ← lane_unpackGroup]
    cases sel with
    | srl => exact lane_shiftRightLanes ..
    | sll => exact lane_shiftLeftLanes ..
    | or => exact lane_orLanes ..
    | xor => exact lane_xorLanes ..
    | add => exact lane_addLanes ..
  · simp only [expanderUnit, unpackGroup_packGroup]
  · simp only [roundPairUnit, unpackGroup_packGroup]

end Sys2Proof.Machine
end

section
/-! ## The message-schedule functions, commands and law (41_schedule.md) -/

namespace Sys2Proof.Machine

open Claims

/-! ### The mixing functions (R120 to R122) -/

theorem sigma0_eq_rotateRight (x : Word) : sigma0 x = x.rotateRight 7 ^^^ x.rotateRight 18 ^^^ (x >>> 3) := by
  rw [sigma0, rotr_eq_rotateRight x (by decide), rotr_eq_rotateRight x (by decide)]

theorem sigma1_eq_rotateRight (x : Word) : sigma1 x = x.rotateRight 17 ^^^ x.rotateRight 19 ^^^ (x >>> 10) := by
  rw [sigma1, rotr_eq_rotateRight x (by decide), rotr_eq_rotateRight x (by decide)]

@[simp] theorem lane_sigma0Lanes (g : LaneGroup) (j : LaneIdx) : lane (sigma0Lanes g) j = sigma0 (lane g j) := by
  rw [sigma0Lanes_eq, lane_mapLanes]

/-- Settles O29: the two shifts of each rotation combined, in one word and in every lane of a group. -/
theorem smallSigmaFunctions : Obligations.SmallSigmaFunctions :=
  ⟨sigma0_eq_rotateRight, sigma1_eq_rotateRight, fun _ => rfl, lane_sigma0Lanes⟩

/-! ### The functions on groups, word by word (R124, R126) -/

/-- Each word of `prev` plus σ0 of the word after it, for lane 0 the oldest of `next`. -/
theorem scheduleStep1_eq (prev next : LaneGroup) :
    scheduleStep1 prev next =
      ⟨prev.l0 + sigma0 next.l3, prev.l1 + sigma0 prev.l0, prev.l2 + sigma0 prev.l1, prev.l3 + sigma0 prev.l2⟩ := by
  rw [scheduleStep1, sigma0Lanes_eq]
  rfl

/-- The group `scheduleStep2` gets inside `schedule`: the words 16 back, σ0 of those 15 back, and the words 7 back. -/
theorem addLanes_scheduleStep1_reassemble (w0 w1 w2 w3 : LaneGroup) :
    addLanes (scheduleStep1 w0 w1) (reassemble w2 w3) =
      ⟨w0.l0 + sigma0 w1.l3 + w3.l3, w0.l1 + sigma0 w0.l0 + w2.l0, w0.l2 + sigma0 w0.l1 + w2.l1,
        w0.l3 + sigma0 w0.l2 + w2.l2⟩ := by
  rw [scheduleStep1_eq]
  rfl

/-! ### The commands (R123 to R126) -/

/-- The word of a command of format R with all five registers and `imm4` 0 (30_encoding.md R75). -/
theorem encodeCmd_formatR_five {i : Instr} {op : Nat} {vd va vb vc ve : VReg} (hop : op < 2 ^ 8)
    (h : encodeCmd i =
      place op 24 ||| (place vd 20 ||| place va 16 ||| place vb 12 ||| place vc 8 ||| place ve 4)) :
    encodeCmd i = formatR op vd va vb vc ve 0 := by
  rw [h, formatR_eq_place hop vd.2 va.2 vb.2 vc.2 ve.2 (by decide)]
  simp

/-- Settles O30: the result is the realigned group. -/
theorem valignRealignsGroups : Obligations.ValignRealignsGroups := fun _ _ _ =>
  datapathRule_of_writeResult rfl rfl (encodeCmd_formatR (by decide) rfl) rfl fun _ => rfl

/-- Settles O31: the result is `scheduleStep1` of the two groups. -/
theorem vmsg1AddsSigma0 : Obligations.Vmsg1AddsSigma0 := fun vd prev next =>
  datapathRule_of_writeResult rfl rfl (encodeCmd_formatR (by decide) rfl) rfl fun s =>
    congrArg (writeResult s vd) (scheduleStep1_eq (s.vGroup prev) (s.vGroup next))

/-- Settles O32: the result is `scheduleStep2` of the two groups, whose chain is the statement's. -/
theorem vmsg2ChainsSigma1 : Obligations.Vmsg2ChainsSigma1 := fun _ _ _ =>
  datapathRule_of_writeResult rfl rfl (encodeCmd_formatR (by decide) rfl) rfl fun _ => rfl

/-- Settles O33: the result is `scheduleStep2` of the sums of the words 16, 15 and 7 back. -/
theorem vschedComputesNextGroup : Obligations.VschedComputesNextGroup := fun vd w0 w1 w2 w3 =>
  datapathRule_of_writeResult rfl rfl (encodeCmd_formatR_five (by decide) rfl) rfl fun s =>
    congrArg (fun mixed => writeResult s vd (scheduleStep2 mixed (s.vGroup w3)))
      (addLanes_scheduleStep1_reassemble (s.vGroup w0) (s.vGroup w1) (s.vGroup w2) (s.vGroup w3))

/-! ### The law of the expander (R127) -/

/-- Settles O34, from the window of sixteen words that moves along the schedule. -/
theorem scheduleLaw : Obligations.ScheduleLaw := by
  refine fun b => ⟨scheduleWord_of_block b, fun t ht => ?_, fun q _ => schedule_scheduleGroup b q⟩
  obtain ⟨n, rfl⟩ := Nat.exists_eq_add_of_le' ht
  exact scheduleWord_add_sixteen b n

end Sys2Proof.Machine
end

section
/-! ## The round functions and the round-pair commands (42_round.md) -/

namespace Sys2Proof.Machine

open Claims

/-! ### The round functions (R140 to R144) -/

theorem bigSigma0_eq_rotateRight (x : Word) :
    bigSigma0 x = x.rotateRight 2 ^^^ x.rotateRight 13 ^^^ x.rotateRight 22 := by
  simp (disch := decide) only [bigSigma0, rotr_eq_rotateRight]

theorem bigSigma1_eq_rotateRight (x : Word) :
    bigSigma1 x = x.rotateRight 6 ^^^ x.rotateRight 11 ^^^ x.rotateRight 25 := by
  simp (disch := decide) only [bigSigma1, rotr_eq_rotateRight]

/-- The bits of Ch: the first of three bits chooses between the other two. -/
theorem xor_and_xor_eq_choice : ∀ p q r : Bool, (r ^^ (p && (q ^^ r))) = if p then q else r := by
  decide

theorem getLsbD_ch (x y z : Word) (i : Nat) :
    (ch x y z).getLsbD i = if x.getLsbD i then y.getLsbD i else z.getLsbD i := by
  simp only [ch, BitVec.getLsbD_xor, BitVec.getLsbD_and, xor_and_xor_eq_choice]

/-- The bits of Maj: the XOR of the three ANDs of three bits is their majority. -/
theorem xor_and_eq_majority : ∀ p q r : Bool,
    ((p && q) ^^ (p && r) ^^ (q && r)) = decide (2 ≤ p.toNat + q.toNat + r.toNat) := by
  decide

theorem getLsbD_maj (x y z : Word) (i : Nat) :
    (maj x y z).getLsbD i = decide (2 ≤ (x.getLsbD i).toNat + (y.getLsbD i).toNat + (z.getLsbD i).toNat) := by
  simp only [maj, BitVec.getLsbD_xor, BitVec.getLsbD_and, xor_and_eq_majority]

/-- Settles O35: the rotations by `rotr_eq_rotateRight`, Ch and Maj bit by bit; the round is its definition. -/
theorem roundFunctions : Obligations.RoundFunctions :=
  ⟨bigSigma0_eq_rotateRight, bigSigma1_eq_rotateRight, fun x y z => ⟨rfl, getLsbD_ch x y z⟩,
    fun x y z => ⟨rfl, getLsbD_maj x y z⟩, fun _ _ => rfl⟩

/-! ### Four rounds of a group (R148, R149) -/

/-- The working variables after the four rounds of group `g` on the schedule group `w`, whose oldest word is lane 3
(10_state.md R29). -/
def fourRounds (v : WorkVars) (w : LaneGroup) (g : GroupIdx) : WorkVars :=
  round (round (round (round v (w.l3 + K ⟨4 * g.val, by omega⟩)) (w.l2 + K ⟨4 * g.val + 1, by omega⟩))
    (w.l1 + K ⟨4 * g.val + 2, by omega⟩)) (w.l0 + K ⟨4 * g.val + 3, by omega⟩)

@[simp] theorem abefOf_workVarsOf (abef cdgh : LaneGroup) : abefOf (workVarsOf abef cdgh) = abef := rfl

@[simp] theorem cdghOf_workVarsOf (abef cdgh : LaneGroup) : cdghOf (workVarsOf abef cdgh) = cdgh := rfl

/-- Both results of `rounds4`, each in its own role: what `workVarsOf_rounds4` says of the eight variables together. -/
theorem rounds4_eq_fourRounds (abef cdgh w : LaneGroup) (g : GroupIdx) :
    rounds4 abef cdgh w g =
      (abefOf (fourRounds (workVarsOf abef cdgh) w g), cdghOf (fourRounds (workVarsOf abef cdgh) w g)) := by
  have h : workVarsOf (rounds4 abef cdgh w g).1 (rounds4 abef cdgh w g).2 = fourRounds (workVarsOf abef cdgh) w g :=
    workVarsOf_rounds4 abef cdgh w g
  rw [← h, abefOf_workVarsOf, cdghOf_workVarsOf]

/-- Settles O40: a round moves A, B, E, F one place on, and `rounds4` leaves the variables after four of them. -/
theorem rolesAlternateOverFourRounds : Obligations.RolesAlternateOverFourRounds :=
  ⟨fun _ _ _ => ⟨rfl, rfl, rfl, rfl⟩, rounds4_eq_fourRounds⟩

/-! ### The commands with one result (R145 to R147) -/

/-- The word of a command of format R, from its operands in the fields of R75 (30_encoding.md). -/
theorem encodeCmd_eq_formatR {i : Instr} {vd va vb vc ve imm4 : Nat} (hd : vd < 16) (ha : va < 16) (hb : vb < 16)
    (hc : vc < 16) (he : ve < 16) (hi : imm4 < 16)
    (h : operandBits i = place vd 20 ||| place va 16 ||| place vb 12 ||| place vc 8 ||| place ve 4 ||| place imm4 0) :
    encodeCmd i = formatR i.op.opcode vd va vb vc ve imm4 := by
  have hop : i.op.opcode < 2 ^ 8 := by cases i.op <;> decide
  rw [formatR_eq_place hop hd ha hb hc he hi, ← h, encodeCmd]

theorem swapHalves_swapHalves (g : LaneGroup) : swapHalves (swapHalves g) = g := rfl

/-- Settles O36: the result is the group with its halves exchanged. -/
theorem vswapExchangesHalves : Obligations.VswapExchangesHalves := by
  refine ⟨fun vd va => ?_, swapHalves_swapHalves⟩
  have hword : encodeCmd (.vswap vd va) = formatR 0x40 vd va 0 0 0 0 :=
    encodeCmd_eq_formatR vd.2 va.2 (by decide) (by decide) (by decide) (by decide) (by simp [operandBits])
  exact datapathRule_of_writeResult rfl rfl hword rfl fun _ => rfl

/-- Settles O37: the result is the sum with KG(g), whose lane `j` is K[4g+3-j]. -/
theorem vaddkAddsRoundConstants : Obligations.VaddkAddsRoundConstants := by
  intro vd va g
  have hword : encodeCmd (.vaddk vd va g) = formatR 0x41 vd va 0 0 0 g :=
    encodeCmd_eq_formatR vd.2 va.2 (by decide) (by decide) (by decide) g.2 (by simp [operandBits])
  exact datapathRule_of_writeResult rfl rfl hword rfl fun _ => rfl

/-- Settles O38: the result is the round pair, whose two rounds are the statement's. -/
theorem vrnd2RunsTwoRounds : Obligations.Vrnd2RunsTwoRounds := by
  intro vd cdgh abef wk
  have hword : encodeCmd (.vrnd2 vd cdgh abef wk) = formatR 0x42 vd cdgh abef wk 0 0 :=
    encodeCmd_eq_formatR vd.2 cdgh.2 abef.2 wk.2 (by decide) (by decide) (by simp [operandBits])
  exact datapathRule_of_writeResult rfl rfl hword rfl fun _ => rfl

/-! ### VRND4 (R148) -/

/-- What two writes leave unchanged, one after the other. -/
theorem onlyRegisters_trans {vs ws : List VReg} {s t u : State} (h : OnlyRegisters vs s t) (h' : OnlyRegisters ws t u) :
    OnlyRegisters (vs ++ ws) s u where
  marked r hr j := by
    by_cases hw : r ∈ ws
    · exact h'.marked r hw j
    · exact ((h'.others r hw).2 j).trans (h.marked r ((List.mem_append.1 hr).resolve_right hw) j)
  others r hr := by
    obtain ⟨hv, hw⟩ : r ∉ vs ∧ r ∉ ws := by simpa using hr
    obtain ⟨hg, hm⟩ := h.others r hv
    obtain ⟨hg', hm'⟩ := h'.others r hw
    exact ⟨hg'.trans hg, fun j => (hm' j).trans (hm j)⟩
  memory a := (h'.memory a).trans (h.memory a)
  rest := h'.rest.trans (congrArg (fun x : State => { x with v := u.v, vMarks := u.vMarks }) h.rest)

section Vrnd4

variable (abef cdgh w : VReg) (g : GroupIdx)

theorem encodeCmd_vrnd4 : encodeCmd (.vrnd4 abef cdgh w g) = formatR 0x43 abef cdgh w 0 0 g :=
  encodeCmd_eq_formatR abef.2 cdgh.2 w.2 (by decide) (by decide) g.2 (by simp [operandBits])

theorem wf_vrnd4_iff : (Instr.vrnd4 abef cdgh w g).wf = true ↔ abef ≠ cdgh := decide_eq_true_iff

theorem exec_vrnd4_same (s : State) : exec (.vrnd4 abef abef w g) s = .next (s.raiseError .illegal) := if_pos rfl

/-- Whatever the data word with it, VRND4's word with one register for both groups is illegal (30_encoding.md R78). -/
theorem decode_vrnd4_same (din : Word) : decode (formatR 0x43 abef abef w 0 0 g) din = .error .vrnd4SameRegister := by
  have hi : assemble .vrnd4 (encodeCmd (.vrnd4 abef abef w g)) din = .vrnd4 abef abef w g :=
    assemble_encode (.vrnd4 abef abef w g)
  rw [← encodeCmd_vrnd4, decode_of_matches (op := .vrnd4) (encodeCmd_matches (.vrnd4 abef abef w g)), hi,
    if_neg (by simp [wf_vrnd4_iff])]

variable {abef cdgh}

/-- With PHASE IDLE both results of `rounds4` are written, computed from the state before. -/
theorem exec_vrnd4_of_idle {s : State} (hne : abef ≠ cdgh) (hi : s.phase = .idle) :
    exec (.vrnd4 abef cdgh w g) s =
      .next ((s.writeV abef (rounds4 (s.vGroup abef) (s.vGroup cdgh) (s.vGroup w) g).1).writeV cdgh
        (rounds4 (s.vGroup abef) (s.vGroup cdgh) (s.vGroup w) g).2) :=
  (if_neg hne).trans (whenIdle_of_idle hi _)

/-- Each of two different registers holds what was written into it. -/
theorem vGroup_writeV_pair (s : State) (hne : abef ≠ cdgh) (x y : LaneGroup) :
    ((s.writeV abef x).writeV cdgh y).vGroup abef = x ∧ ((s.writeV abef x).writeV cdgh y).vGroup cdgh = y :=
  ⟨by rw [State.vGroup_writeV, if_neg hne, State.vGroup_writeV_self], State.vGroup_writeV_self ..⟩

/-- VRND4 completes, in both machines, with the two results of `rounds4` in its two registers. -/
theorem completes_vrnd4 {s : State} (hne : abef ≠ cdgh) (hi : s.phase = .idle)
    (hr : AllWritten (cellsRead (.vrnd4 abef cdgh w g)) s) :
    Completes (.vrnd4 abef cdgh w g) s fun t =>
      (t.vGroup abef, t.vGroup cdgh) = rounds4 (s.vGroup abef) (s.vGroup cdgh) (s.vGroup w) g ∧
        OnlyRegisters [abef, cdgh] s t := by
  have hexec := exec_vrnd4_of_idle w g hne hi
  obtain ⟨ha, hc⟩ := vGroup_writeV_pair s hne (rounds4 (s.vGroup abef) (s.vGroup cdgh) (s.vGroup w) g).1
    (rounds4 (s.vGroup abef) (s.vGroup cdgh) (s.vGroup w) g).2
  exact ⟨_, hexec, (checkedExec_of_written (firstUnwritten_eq_none.2 hr)).trans hexec, by rw [ha, hc],
    onlyRegisters_trans (onlyRegisters_writeV ..) (onlyRegisters_writeV ..)⟩

theorem refusedWhileBusy_vrnd4 (hne : abef ≠ cdgh) : RefusedWhileBusy (.vrnd4 abef cdgh w g) := by
  intro s hb
  have hexec := exec_of_busy hb ((wf_vrnd4_iff abef cdgh w g).2 hne) nofun nofun
  exact ⟨hexec, (checkedExec_of_busy hb).trans hexec⟩

end Vrnd4

/-- Settles O39: the two results of `rounds4` as round pairs and as four rounds; with one register the word is illegal. -/
theorem vrnd4RunsFourRounds : Obligations.Vrnd4RunsFourRounds := by
  intro abef cdgh w g
  constructor
  · intro hne
    have hwf := (wf_vrnd4_iff abef cdgh w g).2 hne
    refine ⟨encodeCmd_vrnd4 abef cdgh w g ▸ spelledBy_encodeCmd hwf rfl, fun s hi hr => ?_,
      faultsOnUnwritten_cellsRead hwf, refusedWhileBusy_vrnd4 w g hne⟩
    obtain ⟨t, hexec, hchecked, hval, hframe⟩ := completes_vrnd4 w g hne hi hr
    obtain ⟨ha, hc⟩ := Prod.mk.inj hval
    obtain ⟨ha', hc'⟩ := Prod.mk.inj (hval.trans (rounds4_eq_fourRounds ..))
    exact ⟨t, hexec, hchecked, ⟨hc, ha⟩, ⟨ha', hc'⟩, hframe⟩
  · rintro rfl
    exact ⟨fun din => ⟨_, decode_vrnd4_same abef w g din⟩, exec_vrnd4_same abef w g⟩

end Sys2Proof.Machine
end

section
/-! ## The block compressor: COMPRESS and the sequencer's steps (43_compressor.md R170 to R176) -/

namespace Sys2Proof.Machine

open Claims

/-! ### COMPRESS (R171) -/

section Compress

variable {s : State}

theorem spelledBy_compress : SpelledBy .compress (formatN 0x10) := spelledBy_encodeCmd (i := .compress) rfl rfl

/-- With PHASE IDLE and the block written, COMPRESS enables the LOAD step. -/
theorem exec_compress_of_holds {b : Block} (hi : s.phase = .idle) (hb : s.HoldsBlock b) :
    exec .compress s = .next { s with phase := .load, grp := 0 } :=
  (whenIdle_of_idle hi _).trans (by rw [readBlock_of_holds hb])

/-- COMPRESS reads the STATE words and the BLK bytes. -/
theorem mem_cellsRead_compress {c : StateCell} :
    c ∈ cellsRead .compress ↔ (∃ i, c = .hash i) ∨ ∃ a, c = .blk a := by
  simp [cellsRead, allHashCells, allBlkCells, eq_comm]

theorem allWritten_compress_iff : AllWritten (cellsRead .compress) s ↔
    (∀ i, s.cellWritten (.hash i) = true) ∧ ∀ a, s.cellWritten (.blk a) = true := by
  simp only [AllWritten, mem_cellsRead_compress, or_imp, forall_and, forall_exists_index, forall_eq_apply_imp_iff]

end Compress

/-- Settles O41: the cells COMPRESS reads are those of the statement, and a fully written BLK holds some block. -/
theorem compressStartsTheSequencer : Obligations.CompressStartsTheSequencer := by
  refine ⟨spelledBy_compress, fun s hi hh ha => ?_, fun s hi hu => ?_, fun s hb => ?_⟩
  · obtain ⟨b, hb⟩ := holdsBlock_of_blkFull (s := s) ha
    have hexec := exec_compress_of_holds hi hb
    have hall := firstUnwritten_eq_none.2 (allWritten_compress_iff.2 ⟨hh, ha⟩)
    exact ⟨_, hexec, (checkedExec_of_written hall).trans hexec, rfl, rfl⟩
  · have hn : ¬ AllWritten (cellsRead .compress) s := by
      rw [allWritten_compress_iff]
      rintro ⟨hh, ha⟩
      rcases hu with ⟨i, hw⟩ | ⟨a, hw⟩
      · cases (hh i).symm.trans hw
      · cases (ha a).symm.trans hw
    obtain ⟨c, hc, hw, hfault⟩ := faultsOnUnwritten_cellsRead (i := .compress) rfl s hi hn
    exact ⟨c, mem_cellsRead_compress.1 hc, hw, hfault⟩
  · have hexec := exec_of_busy hb (i := .compress) rfl nofun nofun
    exact ⟨hexec, (checkedExec_of_busy hb).trans hexec⟩

/-! ### The LOAD, ROUNDS and FINAL steps (R173 to R176) -/

/-- Settles O42: the state after the LOAD step, field by field. -/
theorem loadStepLoadsBlockAndState : Obligations.LoadStepLoadsBlockAndState := by
  intro s b hp hb
  refine ⟨_, (sequencerTurn_load hp).trans (loadStep_of_holds hb), fun q => ?_, rfl, rfl, rfl, rfl, rfl, rfl⟩
  match q with
  | 0 | 1 | 2 | 3 => rfl

theorem State.winSlot_mod (s : State) (q : Nat) : s.winSlot (q % 5) = s.winSlot q := by
  simp only [State.winSlot, Nat.mod_mod]

/-- The table of R175 is the `mod 5` of R174: the four newest groups are read and the oldest slot is written. -/
theorem windowRow_eq_mod : ∀ g : GroupIdx, 4 ≤ g.val →
    (windowRow g.val).1.val = (g.val - 4) % 5 ∧ (windowRow g.val).2.1.val = (g.val - 3) % 5 ∧
    (windowRow g.val).2.2.1.val = (g.val - 2) % 5 ∧ (windowRow g.val).2.2.2.1.val = (g.val - 1) % 5 ∧
    (windowRow g.val).2.2.2.2.val = g.val % 5 := by
  decide

/-- The group a ROUNDS step takes, by the table of R175. -/
theorem roundsInput_eq_windowRow (s : State) (g : GroupIdx) :
    roundsInput s g = if g.val < 4 then s.winSlot g.val
      else schedule (s.winSlot (windowRow g.val).1.val) (s.winSlot (windowRow g.val).2.1.val)
        (s.winSlot (windowRow g.val).2.2.1.val) (s.winSlot (windowRow g.val).2.2.2.1.val) := by
  unfold roundsInput
  split
  · rfl
  · next hg =>
    obtain ⟨h0, h1, h2, h3, -⟩ := windowRow_eq_mod g (Nat.le_of_not_lt hg)
    simp only [h0, h1, h2, h3, State.winSlot_mod]

/-- Settles O43: `roundsStep` takes and writes the slots of the table; its next phase is by the last group or not. -/
theorem roundsStepRunsOneGroup : Obligations.RoundsStepRunsOneGroup := by
  intro s g hp hg
  refine ⟨_, sequencerTurn_rounds hp hg, ⟨?_, win_roundsStep_direct s, fun h4 => ?_⟩, roundsStep_of_lt s,
    fun h15 => ?_, rfl⟩
  · rw [← roundsInput_eq_windowRow]
    exact roundsStep_vars s g
  · obtain ⟨-, -, -, -, hw⟩ := windowRow_eq_mod g h4
    refine ⟨?_, fun q hq => ?_⟩
    · rw [hw, State.winSlot_mod, winSlot_roundsStep s h4, if_pos rfl, roundsInput_eq_windowRow]
    · have hne : q.val % 5 ≠ g.val % 5 := by
        rw [Nat.mod_eq_of_lt q.2, ← hw]
        exact Fin.val_ne_of_ne hq
      rw [winSlot_roundsStep s h4, if_neg hne]
  · obtain ⟨hp', hg'⟩ := roundsStep_of_last s h15
    exact ⟨hp', by rw [hg']; rfl⟩

theorem cellWritten_hash_finalStep (s : State) (i : StateIdx) : (finalStep s).cellWritten (.hash i) = true :=
  Vector.getElem_replicate i.2

/-- Settles O44: the state after the FINAL step, word by word. -/
theorem finalStepFeedsForward : Obligations.FinalStepFeedsForward := fun s hp =>
  ⟨_, sequencerTurn_final hp, rfl, rfl, rfl, rfl, rfl, rfl, rfl, rfl, cellWritten_hash_finalStep s, rfl, rfl, rfl⟩

/-! ### The eighteen steps of a compression (R170, R172) -/

/-- A sequencer turn takes no event from the port. -/
theorem TurnEffect.port_eq {s t : State} (e : TurnEffect s t) : t.port = s.port := by cases e <;> rfl

/-- With nothing to come a legal state is idle after the steps its compression has left. -/
theorem runSteps_turnsLeft {s : State} (h : s.Legal) (hq : s.port = []) :
    ∃ t, runSteps s.turnsLeft s = .next t ∧ t.phase = .idle := by
  induction hn : s.turnsLeft generalizing s with
  | zero =>
    refine ⟨s, rfl, ?_⟩
    by_contra hb
    obtain ⟨t, -, -, ht⟩ := h.turn hb
    omega
  | succ n ih =>
    have hb : s.phase ≠ .idle := fun hi => by simp [State.turnsLeft, hi] at hn
    obtain ⟨t, ht, hl, hleft⟩ := h.turn hb
    obtain ⟨u, hu, hpu⟩ := ih hl ((sequencerTurn_effect ht).port_eq.trans hq) (by omega)
    exact ⟨u, (runSteps_succ ((step_of_quiet hq).trans ht)).trans hu, hpu⟩

theorem runSteps_succ_last {k : Nat} {s t u : State} (h : runSteps k s = .next t) (hs : step t = .next u) :
    runSteps (k + 1) s = .next u := (runSteps_add h).trans (runSteps_succ hs)

/-- From LOAD with nothing to come, FINAL is next after the LOAD step and the sixteen ROUNDS steps. -/
theorem runSteps_to_final {s : State} {b : Block} (hp : s.phase = .load) (hb : s.HoldsBlock b) (hq : s.port = []) :
    ∃ t, runSteps 17 s = .next t ∧ t.phase = .final ∧ t.grp = 16 ∧ t.port = [] := by
  obtain ⟨t, hrun, hpt, hgt, hqt, -⟩ := runSteps_to_group hp hb hq 15
  have e : step t = .next (roundsStep t 15) := (step_of_quiet hqt).trans (sequencerTurn_rounds hpt hgt)
  obtain ⟨hp', hg'⟩ := roundsStep_of_last t (g := 15) rfl
  exact ⟨_, runSteps_succ_last hrun e, hp', hg', (roundsStep_port t _).trans hqt⟩

/-- Settles O45: COMPRESS, then the groups in order, FINAL and IDLE; from any legal state by the steps left. -/
theorem compressionTakesEighteenSteps : Obligations.CompressionTakesEighteenSteps := by
  refine ⟨fun s b hi hb => ⟨_, exec_compress_of_holds hi hb, rfl⟩, fun s b hp hb hq => ⟨fun g hg => ?_, ?_⟩,
    fun s h hq => ?_⟩
  · obtain ⟨t, hrun, hpt, hgt, -, -⟩ := runSteps_to_group hp hb hq ⟨g, hg⟩
    exact ⟨t, hrun, hpt, hgt⟩
  · obtain ⟨t, hrun, hpt, hgt, hqt⟩ := runSteps_to_final hp hb hq
    have e : step t = .next (finalStep t) := (step_of_quiet hqt).trans (sequencerTurn_final hpt)
    exact ⟨⟨t, hrun, hpt, by rw [hgt]; rfl⟩, finalStep t, runSteps_succ_last hrun e, rfl, rfl⟩
  · obtain ⟨t, hrun, hpt⟩ := runSteps_turnsLeft h hq
    exact ⟨s.turnsLeft, t, s.turnsLeft_le, hrun, hpt⟩

end Sys2Proof.Machine
end

section
/-! ## Stops, and STATE words written whenever a compression runs (43_compressor.md R171, R179,
70_reset_and_hazards.md R264) -/

namespace Sys2Proof.Machine

open Claims

/-- No turn of the sequencer stops in a legal state. -/
theorem State.Legal.sequencerTurn_completes {s : State} (h : s.Legal) : ∃ t, sequencerTurn s = .next t := by
  by_cases hi : s.phase = .idle
  · exact ⟨s, sequencerTurn_idle hi⟩
  · obtain ⟨t, ht, -⟩ := h.turn hi
    exact ⟨t, ht⟩

/-- From a legal state a transition completes, or it is what its command does. -/
theorem State.Legal.step_cases {s : State} (h : s.Legal) :
    (∃ t, step s = .next t) ∨ ∃ i rest, NextCommand s i ∧ step s = exec i (s.setPort rest) := by
  cases hp : s.port with
  | nil =>
    rw [step_of_quiet hp]
    exact .inl h.sequencerTurn_completes
  | cons e rest =>
    cases e with
    | command cmd din =>
      cases hd : decode cmd din with
      | ok i => exact .inr ⟨i, rest, ⟨cmd, din, rest, hp, hd⟩, step_of_decode hp hd⟩
      | error r => exact .inl ⟨(s.setPort rest).raiseError .illegal, by simp only [step_of_command hp, runCommand, hd]⟩
    | sequencerTurn =>
      rw [step_of_turn hp]
      exact .inl (h.setPort rest).sequencerTurn_completes
    | reset => exact .inl ⟨resetTransition (s.setPort rest), by simp only [step, hp, runEvent]⟩

/-- Settles O54: only a command can stop, and `exec_eq_fault` says which and on what. -/
theorem legalStatesStopOnlyOnUnwrittenBytes : Obligations.LegalStatesStopOnlyOnUnwrittenBytes := by
  intro s h
  rcases h.step_cases with ⟨t, ht⟩ | ⟨i, rest, hn, hs⟩
  · rw [ht]
    exact ⟨nofun, nofun⟩
  · rw [hs]
    refine ⟨exec_ne_refused i _, fun f hf => ?_⟩
    obtain ⟨hi, hc, a, ha, rfl⟩ := exec_eq_fault hf
    exact ⟨hi, a, i, hn, hc.symm, Option.isSome_eq_false_iff.2 (Option.isNone_iff_eq_none.2 ha), rfl⟩

/-! ### The checked machine -/

/-- A transition of the checked machine that completes reads no unwritten cell and is the machine's own. -/
theorem checkedStep_eq_next {s t : State} (h : checkedStep s = .next t) :
    unwrittenAhead s = none ∧ step s = .next t := by
  cases hu : unwrittenAhead s with
  | none => exact ⟨rfl, (checkedStep_of_written hu).symm.trans h⟩
  | some c => cases (checkedStep_of_unwritten hu).symm.trans h

/-- After a turn that leaves a compression running, one ran before, and the marks of STATE are as before. -/
theorem TurnEffect.hashMarks_of_busy {s t : State} (e : TurnEffect s t) (ht : t.phase ≠ .idle) :
    s.phase ≠ .idle ∧ t.hashMarks = s.hashMarks := by
  cases e with
  | idle => exact ⟨ht, rfl⟩
  | load b hp => exact ⟨by simp [hp], rfl⟩
  | rounds g hp => exact ⟨by simp [hp], rfl⟩
  | final => exact absurd rfl ht

/-- After a command that leaves a compression running, one ran before or the command was COMPRESS, and the marks of STATE
are as before: WRSTATE needs PHASE IDLE. -/
theorem CommandEffect.hashMarks_of_busy {i : Instr} {s t : State} (e : CommandEffect i s t) (ht : t.phase ≠ .idle) :
    (s.phase ≠ .idle ∨ s.phase = .idle ∧ i = .compress) ∧ t.hashMarks = s.hashMarks := by
  cases e with
  | startCompression g hi hc => exact ⟨.inr ⟨hi, hc⟩, rfl⟩
  | writeState idx din hi => exact absurd hi ht
  | _ => exact ⟨.inl ht, rfl⟩

/-- The words marked written are those of the marks. -/
theorem cellWritten_hash_congr {s t : State} (h : t.hashMarks = s.hashMarks) (i : StateIdx) :
    t.cellWritten (.hash i) = s.cellWritten (.hash i) := by simp only [State.cellWritten, h]

/-- In the checked machine COMPRESS as the next command has found every STATE word written. -/
theorem hashWritten_of_compress {s : State} (hu : unwrittenAhead s = none) (hi : s.phase = .idle)
    (hn : NextCommand s .compress) (k : StateIdx) : s.cellWritten (.hash k) = true := by
  obtain ⟨cmd, din, rest, hp, hd⟩ := hn
  rw [unwrittenAhead_of_decode hp hd, if_pos hi, firstUnwritten_eq_none, allWritten_compress_iff] at hu
  exact hu.1 k

/-- Settles O57: only COMPRESS starts a compression, and while one runs nothing touches the marks of STATE. -/
theorem checkedMachineRunsOnWrittenState : Obligations.CheckedMachineRunsOnWrittenState := by
  refine ⟨fun h => absurd rfl h, fun s t h hs ht k => ?_⟩
  obtain ⟨hu, hs⟩ := checkedStep_eq_next hs
  have hr : ¬ NextReset s := fun hr => ht (phase_of_reset hs hr)
  obtain ⟨rest, ⟨-, e⟩ | ⟨i, hn, -, e⟩ | ⟨-, rfl⟩⟩ := step_cases hs hr
  · obtain ⟨hb, hm⟩ := e.hashMarks_of_busy ht
    exact (cellWritten_hash_congr (s := s) hm k).trans (h hb k)
  · obtain ⟨hb, hm⟩ := e.hashMarks_of_busy ht
    refine (cellWritten_hash_congr (s := s) hm k).trans ?_
    rcases hb with hb | ⟨hi, rfl⟩
    · exact h hb k
    · exact hashWritten_of_compress hu hi hn k
  · exact h ht k

end Sys2Proof.Machine
end

section
/-! ## A compression computes `compressBlock` (43_compressor.md R177, R178, R180) -/

namespace Sys2Proof.Machine

open Claims

/-! ### The events of a running compression -/

section Busy

variable {s t : State} {b : Block}

/-- A turn of a running compression leaves one step less. -/
theorem TurnEffect.turnsLeft (e : TurnEffect s t) (hb : s.phase ≠ .idle) : t.turnsLeft + 1 = s.turnsLeft := by
  cases e with
  | idle hi => exact absurd hi hb
  | load b hp => simp [State.turnsLeft, hp]
  | rounds g hp hg =>
    rcases Nat.lt_or_ge g.val 15 with h15 | h15
    · obtain ⟨hp', hg'⟩ := roundsStep_of_lt s h15
      simp only [State.turnsLeft, hp, hp', hg, hg']
      omega
    · obtain ⟨hp', -⟩ := roundsStep_of_last s (g := g) (by omega)
      simp only [State.turnsLeft, hp, hp', hg]
      omega
  | final hp => simp [State.turnsLeft, hp]

/-- The turn of a compression on course completes: its block is written, and its group is below 16. -/
theorem State.FollowsTextbook.sequencerTurn_completes (h : s.FollowsTextbook b) : ∃ t, sequencerTurn s = .next t := by
  cases hp : s.phase with
  | idle => exact ⟨_, sequencerTurn_idle hp⟩
  | load => exact ⟨_, (sequencerTurn_load hp).trans (loadStep_of_holds h.block)⟩
  | rounds =>
    obtain ⟨hg, -⟩ := h.rounds hp
    exact ⟨_, sequencerTurn_rounds (g := ⟨s.grp.toNat, hg⟩) hp rfl⟩
  | final => exact ⟨_, sequencerTurn_final hp⟩

/-- A compression on course runs exactly while steps are left. -/
theorem State.FollowsTextbook.turnsLeft_pos_iff (h : s.FollowsTextbook b) : 0 < s.turnsLeft ↔ s.phase ≠ .idle := by
  refine ⟨fun hn hi => by simp [State.turnsLeft, hi] at hn, fun hb => ?_⟩
  obtain ⟨t, ht⟩ := h.sequencerTurn_completes
  have := (sequencerTurn_effect ht).turnsLeft hb
  omega

/-- While a compression runs no command word stops, and none does more than write ERR, ERRCODE and DOUT
(60_exceptions.md R232, R233). -/
theorem runCommand_of_busy (hb : s.phase ≠ .idle) (cmd din : Word) :
    ∃ t, runCommand cmd din s = .next t ∧ t = { s with err := t.err, errCode := t.errCode, dout := t.dout } := by
  cases hd : decode cmd din with
  | error r => exact ⟨s.raiseError .illegal, by simp only [runCommand, hd], rfl⟩
  | ok i =>
    cases he : exec i s with
    | next t => exact ⟨t, by simp only [runCommand, hd, he], (exec_effect he).busy_frame hb⟩
    | fault f => exact absurd (exec_eq_fault he).1 hb
    | refused r => exact absurd he (exec_ne_refused i s r)

/-- What an event of a running compression leaves as it was: the block, V and its marks, and the events after it. -/
structure BusyFrame (s : State) (rest : List PortEvent) (t : State) : Prop where
  port : t.port = rest
  blk : t.blk = s.blk
  v : t.v = s.v
  vMarks : t.vMarks = s.vMarks

theorem TurnEffect.busyFrame {rest : List PortEvent} (e : TurnEffect (s.setPort rest) t) : BusyFrame s rest t := by
  cases e <;> exact ⟨rfl, rfl, rfl, rfl⟩

/-- Any event but a reset completes while a compression on course runs; one step less is left exactly after a turn. -/
theorem State.FollowsTextbook.event_completes (h : s.FollowsTextbook b) (hb : s.phase ≠ .idle) {e : PortEvent}
    {rest : List PortEvent} (hp : s.port = e :: rest) (he : e ≠ .reset) :
    ∃ t, Machine.step s = .next t ∧ BusyFrame s rest t ∧ t.turnsLeft + [e].count .sequencerTurn = s.turnsLeft := by
  cases e with
  | reset => exact absurd rfl he
  | sequencerTurn =>
    obtain ⟨t, ht⟩ := (h.setPort rest).sequencerTurn_completes
    have e := sequencerTurn_effect ht
    exact ⟨t, (step_of_turn hp).trans ht, e.busyFrame, e.turnsLeft hb⟩
  | command cmd din =>
    obtain ⟨t, ht, hframe⟩ := runCommand_of_busy (s := s.setPort rest) hb cmd din
    refine ⟨t, (step_of_command hp).trans ht, ?_, ?_⟩ <;> rw [hframe]
    · exact ⟨rfl, rfl, rfl, rfl⟩
    · rfl

/-- The event that ends a compression is FINAL, which clears GRP. -/
theorem grp_of_ended (hs : step s = .next t) (hr : ¬ NextReset s) (hb : s.phase ≠ .idle) (ht : t.phase = .idle) :
    t.grp = 0 := by
  obtain ⟨rest, ⟨-, e⟩ | ⟨i, -, -, e⟩ | ⟨-, rfl⟩⟩ := step_cases hs hr
  · rcases e.busy_cases hb with ⟨hgo, -⟩ | ⟨-, rfl⟩
    · exact absurd ht hgo
    · rfl
  · rw [e.busy_frame hb] at ht
    exact absurd ht hb
  · exact absurd ht hb

/-- A compression on course, with any events but a reset among its turns, ends with its last turn and leaves
`compressBlock(S, B)` (R177, R180). -/
theorem State.FollowsTextbook.run {es rest : List PortEvent} (h : s.FollowsTextbook b) (hr : ∀ e ∈ es, e ≠ .reset)
    (hn : es.count .sequencerTurn + 1 = s.turnsLeft) (hp : s.port = es ++ .sequencerTurn :: rest) :
    ∃ t, runSteps (es.length + 1) s = .next t ∧ t.hash = compressBlock s.hash b ∧ t.phase = .idle ∧ t.grp = 0 ∧
      BusyFrame s rest t := by
  have hb : s.phase ≠ .idle := h.turnsLeft_pos_iff.1 (by omega)
  induction es generalizing s with
  | nil =>
    have hnr : ¬ NextReset s := fun ⟨_, hreset⟩ => by simp [hp] at hreset
    obtain ⟨t, hs, hf, hleft⟩ := h.event_completes hb hp nofun
    obtain ⟨hft, ⟨hbt, -⟩ | ⟨hit, -, -, hh⟩⟩ := h.step hb hnr hs
    · have := hft.turnsLeft_pos_iff.2 hbt
      rw [List.count_nil] at hn
      rw [List.count_singleton_self] at hleft
      omega
    · exact ⟨t, runSteps_succ hs, hh, hit, grp_of_ended hs hnr hb hit, hf⟩
  | cons e es ih =>
    have he := hr e List.mem_cons_self
    have hnr : ¬ NextReset s := fun ⟨_, hreset⟩ => he (by rw [hp] at hreset; exact (List.cons.inj hreset).1)
    obtain ⟨u, hs, hf, hleft⟩ := h.event_completes hb hp he
    have hnu : es.count .sequencerTurn + 1 = u.turnsLeft := by
      rw [← List.singleton_append, List.count_append] at hn
      omega
    obtain ⟨hfu, hend⟩ := h.step hb hnr hs
    have hbu := hfu.turnsLeft_pos_iff.1 (by omega)
    obtain ⟨-, hh⟩ := hend.resolve_right fun hi => hbu hi.1
    obtain ⟨t, hrun, hht, hit, hgt, hft⟩ :=
      ih hfu (fun e' he' => hr e' (List.mem_cons_of_mem e he')) hnu hf.port hbu
    exact ⟨t, (runSteps_succ hs).trans hrun, hh ▸ hht, hit, hgt, hft.port, hft.blk.trans hf.blk, hft.v.trans hf.v,
      hft.vMarks.trans hf.vMarks⟩

end Busy

/-- Settles O48: from LOAD eighteen steps are left, seventeen of them turns among the events. -/
theorem interleavingCannotChangeTheResult : Obligations.InterleavingCannotChangeTheResult := by
  intro s b es rest hp hb hr hc hq
  have hleft : es.count .sequencerTurn + 1 = s.turnsLeft := by simp [State.turnsLeft, hp, hc]
  obtain ⟨t, hrun, hh, hit, hgt, hf⟩ := (followsTextbook_of_load hp hb).run hr hleft hq
  exact ⟨t, hrun, hh, hit, hgt, hf.blk, hf.v, hf.vMarks, hf.port⟩

/-! ### COMPRESS and eighteen turns (R177) -/

theorem runSteps_succ_eq_next {k : Nat} {s t : State} (h : runSteps (k + 1) s = .next t) :
    ∃ u, step s = .next u ∧ runSteps k u = .next t := by
  cases hs : step s with
  | next u => exact ⟨u, rfl, (runSteps_succ hs).symm.trans h⟩
  | fault f => simp [runSteps, hs] at h
  | refused r => simp [runSteps, hs] at h

/-- Turns of the sequencer alone leave ERR, ERRCODE and DOUT as they were. -/
theorem runSteps_turns_frame {n : Nat} {s t : State} {rest : List PortEvent}
    (hq : s.port = List.replicate n .sequencerTurn ++ rest) (h : runSteps n s = .next t) :
    t.err = s.err ∧ t.errCode = s.errCode ∧ t.dout = s.dout := by
  induction n generalizing s with
  | zero => exact Host.Outcome.next.inj h ▸ ⟨rfl, rfl, rfl⟩
  | succ n ih =>
    obtain ⟨u, hs, hu⟩ := runSteps_succ_eq_next h
    have e := sequencerTurn_effect ((step_of_turn hq).symm.trans hs)
    obtain ⟨h1, h2, h3⟩ := ih e.port_eq hu
    exact ⟨h1.trans e.err_eq, h2.trans e.errCode_eq, h3.trans e.dout_eq⟩

/-- A state whose BLK, V, ERR, ERRCODE and DOUT are those of `s` is itself with these of `s`. -/
theorem eq_with_hostSide {s t : State} (hblk : t.blk = s.blk) (hv : t.v = s.v) (hm : t.vMarks = s.vMarks)
    (he : t.err = s.err) (hc : t.errCode = s.errCode) (hdout : t.dout = s.dout) :
    t = { t with blk := s.blk, v := s.v, vMarks := s.vMarks, err := s.err, errCode := s.errCode, dout := s.dout } := by
  rw [← hblk, ← hv, ← hm, ← he, ← hc, ← hdout]

/-- Settles O47: COMPRESS leads to LOAD, from which the eighteen turns are a run of O48 that meets no command. -/
theorem compressionComputesCompressBlock : Obligations.CompressionComputesCompressBlock := by
  intro s b din rest hi hb hq
  have hd : decode 0x10000000 din = .ok .compress := (spelledBy_compress _ din).2 rfl
  have hs := (step_of_decode hq hd).trans (exec_compress_of_holds (s := s.setPort _) hi hb)
  obtain ⟨t, hrun, hh, hit, hgt, hblk, hv, hm, hpt⟩ := interleavingCannotChangeTheResult
    { s.setPort (List.replicate 18 .sequencerTurn ++ rest) with phase := .load, grp := 0 } b
    (List.replicate 17 .sequencerTurn) rest rfl hb (fun e he => by simp [List.eq_of_mem_replicate he])
    List.count_replicate_self rfl
  obtain ⟨he, hc, hdout⟩ := runSteps_turns_frame rfl hrun
  exact ⟨t, (runSteps_succ hs).trans hrun, hh, fun a => by rw [hblk]; rfl, hit, hgt, hpt,
    eq_with_hostSide hblk hv hm he hc hdout⟩

/-! ### HASHBLOCK (R178, 30_encoding.md R82) -/

theorem setWidth_extract_byte (x : Byte) : (x.setWidth 32).extractLsb' 0 8 = x := by
  apply BitVec.eq_of_toNat_eq
  simpa using x.isLt

/-- WRBYTE of every byte of `b` not yet there leaves BLK holding `b`, and STATE as it was. -/
theorem runCommands_wrbytes {b : Block} {s : State} (l : List ByteIdx) (is : List Instr) (hi : s.phase = .idle)
    (hb : ∀ a, a ∈ l ∨ readByte s.blk a.val = some (b a)) :
    ∃ t, runCommands (l.map (fun k => Instr.wrbyte k ((b k).setWidth 32)) ++ is) s = runCommands is t ∧
      t.phase = .idle ∧ t.hash = s.hash ∧ t.HoldsBlock b := by
  induction l generalizing s with
  | nil => exact ⟨s, rfl, hi, rfl, fun a => (hb a).resolve_left List.not_mem_nil⟩
  | cons k l ih =>
    have hw := exec_wrbyte_of_idle hi k ((b k).setWidth 32)
    rw [setWidth_extract_byte] at hw
    obtain ⟨t, hrun, hit, hh, ht⟩ := ih (s := s.setBlk (writeByte k.val (b k) s.blk)) hi fun a => by
      rw [State.setBlk_blk, readByte_writeByte]
      split
      · next hk => exact .inr (by rw [Fin.ext hk])
      · next hk => exact (hb a).imp_left fun ha => List.mem_of_ne_of_mem (fun e => hk (congrArg _ e)) ha
    refine ⟨t, ?_, hit, hh, ht⟩
    simp only [List.map_cons, List.cons_append, runCommands, hw]
    exact hrun

/-- The commands of HASHBLOCK leave LOAD next, with the block written and STATE as it was. -/
theorem runCommands_hashBlock {s : State} (hi : s.phase = .idle) (b : Block) :
    ∃ t, runCommands (hashBlockCommands b) s = .next t ∧ t.phase = .load ∧ t.hash = s.hash ∧ t.HoldsBlock b := by
  obtain ⟨u, hrun, hiu, hh, hb⟩ :=
    runCommands_wrbytes (List.finRange 64) [.compress] hi fun a => .inl (List.mem_finRange a)
  refine ⟨{ u with phase := .load, grp := 0 }, hrun.trans ?_, rfl, hh, hb⟩
  simp only [runCommands, exec_compress_of_holds hiu hb]

/-- The polls of WAITIDLE, one for each step left and one more, end a compression on course. -/
theorem waitIdle_compresses {s : State} {b : Block} {fuel : Nat} (h : s.FollowsTextbook b) (hb : s.phase ≠ .idle)
    (hf : s.turnsLeft < fuel) :
    ∃ t, waitIdle fuel s = .next t ∧ t.hash = compressBlock s.hash b ∧ t.phase = .idle := by
  induction fuel generalizing s with
  | zero => omega
  | succ fuel ih =>
    have hd : (s.setDout s.status).FollowsTextbook b := ⟨h.block, h.rounds, h.final⟩
    obtain ⟨u, hu⟩ := hd.sequencerTurn_completes
    have e := sequencerTurn_effect hu
    have hleft : u.turnsLeft + 1 = s.turnsLeft := e.turnsLeft hb
    rw [waitIdle_of_busy hb hu]
    rcases e.busy_cases hb with ⟨hbu, hh⟩ | ⟨hp, rfl⟩
    · obtain ⟨t, ht, hht, hit⟩ := ih (e.follows hd) hbu (by omega)
      exact ⟨t, ht, hh ▸ hht, hit⟩
    · obtain ⟨n, rfl⟩ : ∃ n, fuel = n + 1 := ⟨fuel - 1, by omega⟩
      exact ⟨_, waitIdle_of_idle rfl n, hd.finalStep_hash hp, rfl⟩

/-- HASHBLOCK of a block leaves `compressBlock(S, B)` in STATE. -/
theorem hashBlock_of_idle {s : State} (hi : s.phase = .idle) (b : Block) :
    ∃ t, hashBlock b s = .next t ∧ t.hash = compressBlock s.hash b ∧ t.phase = .idle := by
  obtain ⟨u, hrun, hp, hh, hb⟩ := runCommands_hashBlock hi b
  have hleft : u.turnsLeft < Config.stepsPerBlock + 1 := Nat.lt_succ_of_le u.turnsLeft_le
  obtain ⟨t, ht, hht, hit⟩ := waitIdle_compresses (followsTextbook_of_load hp hb) (by simp [hp]) hleft
  exact ⟨t, by simp only [hashBlock, hrun, ht], hh ▸ hht, hit⟩

theorem hashBlocks_of_idle (bs : List Block) {s : State} (hi : s.phase = .idle) :
    ∃ t, hashBlocks bs s = .next t ∧ t.hash = compressBlocks s.hash bs ∧ t.phase = .idle := by
  induction bs generalizing s with
  | nil => exact ⟨s, rfl, rfl, hi⟩
  | cons b bs ih =>
    obtain ⟨u, hu, hh, hiu⟩ := hashBlock_of_idle hi b
    obtain ⟨t, ht, hht, hit⟩ := ih hiu
    exact ⟨t, by simp only [hashBlocks, hu, ht], by rw [hht, hh, compressBlocks], hit⟩

theorem compressBlocks_append (h : Vector Word 8) (bs cs : List Block) :
    compressBlocks h (bs ++ cs) = compressBlocks (compressBlocks h bs) cs := by
  induction bs generalizing h with
  | nil => rfl
  | cons b bs ih => exact ih (compressBlock h b)

/-- Settles O49, by induction on the blocks. -/
theorem hashBlocksChainThroughState : Obligations.HashBlocksChainThroughState :=
  ⟨fun bs _ hi => hashBlocks_of_idle bs hi, compressBlocks_append⟩

end Sys2Proof.Machine
end

section
/-! ## The host access commands (44_host.md R201 to R209) -/

namespace Sys2Proof.Machine

open Claims

/-! ### Their words (30_encoding.md R73, R76) -/

/-- Format I as its fields, each in its place (R73). -/
theorem formatI_eq_place {op v idx : Nat} (hop : op < 2 ^ 8) (hv : v < 16) (hi : idx < 64) :
    formatI op v idx = place op 24 ||| (place v 20 ||| place idx 0) := by
  have hw : (formatI op v idx).toNat =
    (BitVec.ofNat 8 op ++ BitVec.ofNat 4 v ++ 0#14 ++ BitVec.ofNat 6 idx : BitVec (8 + 4 + 14 + 6)).toNat := rfl
  apply BitVec.eq_of_toNat_eq
  rw [hw]
  simp (disch := omega) [place, Nat.mod_eq_of_lt, Nat.shiftLeft_or_distrib, ← Nat.shiftLeft_add, Nat.or_assoc,
    -Nat.reduceAdd]

/-- The word of a command of format I, from its operands in the fields of R73. -/
theorem encodeCmd_eq_formatI {i : Instr} {v idx : Nat} (hv : v < 16) (hi : idx < 64)
    (h : operandBits i = place v 20 ||| place idx 0) : encodeCmd i = formatI i.op.opcode v idx := by
  have hop : i.op.opcode < 2 ^ 8 := by cases i.op <;> decide
  rw [formatI_eq_place hop hv hi, ← h, encodeCmd]

/-- The word of a command of format I without a register. -/
theorem encodeCmd_eq_formatI_zero {i : Instr} {idx : Nat} (hi : idx < 64) (h : operandBits i = place idx 0) :
    encodeCmd i = formatI i.op.opcode 0 idx :=
  encodeCmd_eq_formatI (by decide) hi (by simp [h])

/-- A legal write command is spelled by its encoded word with its own data word, and by nothing else. -/
theorem spelledWithData_encode {i : Instr} (hwf : i.wf = true) (hw : i.isWrite = true) :
    SpelledWithData i (encodeCmd i) (encodeDin i) := by
  intro cmd din
  constructor
  · intro h
    obtain ⟨-, hcmd, hdin⟩ := legalWordHasOneEncoding cmd din i h
    exact ⟨hcmd.symm, (hdin hw).symm⟩
  · rintro ⟨rfl, rfl⟩
    exact decodeAfterEncodeIsIdentity i hwf

/-! ### The parts of a command's rule (R200, 60_exceptions.md R232) -/

theorem refusedWhileBusy_of_wf {i : Instr} (hwf : i.wf = true) (hn : i ≠ .nop) (hr : i ≠ .rdstatus) : RefusedWhileBusy i := by
  intro s hb
  have hexec := exec_of_busy hb hwf hn hr
  exact ⟨hexec, (checkedExec_of_busy hb).trans hexec⟩

section Completing

variable {i : Instr} {s t : State}

/-- A command whose cells are written does the same in both machines. -/
theorem completes_of_exec {P : State → Prop} (hr : AllWritten (cellsRead i) s) (h : exec i s = .next t) (hP : P t) :
    Completes i s P :=
  ⟨t, h, (checkedExec_of_written (firstUnwritten_eq_none.2 hr)).trans h, hP⟩

/-- A command that reads no cell, as no write command does, completes whatever is written. -/
theorem completes_of_no_reads {P : State → Prop} (hr : cellsRead i = []) (h : exec i s = .next t) (hP : P t) :
    Completes i s P :=
  completes_of_exec (by simp [hr, AllWritten]) h hP

/-- A command that copies `x` to DOUT changes nothing else. -/
theorem completes_of_setDout {x : Word} (hr : AllWritten (cellsRead i) s) (h : exec i s = .next (s.setDout x)) :
    Completes i s fun t => t.dout = x ∧ OnlyDout s t :=
  completes_of_exec hr h ⟨rfl, fun _ => rfl, rfl⟩

end Completing

/-! ### The bytes of a block word (R206, R207) -/

theorem mem_bytesOfWord {idx : WordIdx} {a : ByteIdx} : a ∈ bytesOfWord idx ↔ ∃ k, a = byteAddr idx k := by
  simp [bytesOfWord, Fin.exists_fin_succ]

theorem cellWritten_of_readByte {s : State} {a : ByteIdx} {b : Byte} (h : readByte s.blk a.val = some b) :
    s.cellWritten (.blk a) = true := by
  simp [State.cellWritten, h]

theorem onlyBytes_writeByte (s : State) (a : ByteIdx) (b : Byte) :
    OnlyBytes [a] s (s.setBlk (writeByte a.val b s.blk)) where
  marked _ hc := List.mem_singleton.1 hc ▸ cellWritten_of_readByte (readByte_writeByte_self ..)
  others _ hc := readByte_writeByte_ne s.blk b (hc a (List.mem_singleton_self a))
  rest := rfl

theorem onlyBytes_memWrite4 (s : State) (idx : WordIdx) (x : Word) :
    OnlyBytes (bytesOfWord idx) s (s.setBlk (memWrite4 idx x s.blk)) where
  marked a ha := by
    obtain ⟨k, rfl⟩ := mem_bytesOfWord.1 ha
    exact cellWritten_of_readByte (memRead4_eq_ok.1 (memRead4_memWrite4 s.blk idx x) k)
  others _ ha := readByte_memWrite4_ne s.blk x fun k => ha _ (mem_bytesOfWord.2 ⟨k, rfl⟩)
  rest := rfl

/-- One byte of a longer read: if the rest of the read stops on the first unwritten one of `cells`, the read stops on the
first unwritten one of this byte and `cells`. -/
theorem memRead1_bind_of_find?_unwritten {s : State} {a : ByteIdx} {cells : List StateCell} {c : StateCell}
    {f : Byte → Except StateCell Word} (hf : ∀ b, cells.find? (fun d => !s.cellWritten d) = some c → f b = .error c)
    (h : (.blk a :: cells).find? (fun d => !s.cellWritten d) = some c) : memRead1 s.blk a >>= f = .error c := by
  rcases memRead1_cases s.blk a with ⟨b, r, e⟩ | ⟨r, e⟩
  · rw [List.find?_cons_of_neg (by simp [State.cellWritten, r])] at h
    rw [e]
    exact hf b h
  · rw [List.find?_cons_of_pos (by simp [State.cellWritten, r])] at h
    rw [e, ← Option.some.inj h]
    rfl

/-- A word read stops on the first unwritten one of its four bytes: the cell the checked machine stops on. -/
theorem memRead4_of_firstUnwritten {s : State} {idx : WordIdx} {c : StateCell}
    (h : firstUnwritten (.rdword idx) s = some c) : memRead4 s.blk idx = .error c := by
  refine memRead1_bind_of_find?_unwritten (fun _ => memRead1_bind_of_find?_unwritten fun _ =>
    memRead1_bind_of_find?_unwritten fun _ => memRead1_bind_of_find?_unwritten fun _ hnil => ?_) h
  cases hnil

theorem exec_rdword_of_error {s : State} (hi : s.phase = .idle) {idx : WordIdx} {c : StateCell}
    (h : memRead4 s.blk idx = .error c) : exec (.rdword idx) s = .fault (.unwrittenRead c) :=
  (whenIdle_of_idle hi _).trans (by rw [h]; rfl)

/-! ### The commands -/

/-- Settles O13: NOP's next state is the state itself. -/
theorem nopChangesNothing : Obligations.NopChangesNothing :=
  ⟨spelledBy_encodeCmd (i := .nop) rfl rfl, fun _ => completes_of_no_reads rfl rfl rfl⟩

/-- Settles O14: RDSTATUS copies STATUS to DOUT, and passes no BUSY gate. -/
theorem rdstatusReadsStatus : Obligations.RdstatusReadsStatus :=
  ⟨spelledBy_encodeCmd (i := .rdstatus) rfl rfl, fun _ => completes_of_setDout nofun rfl⟩

/-- Settles O15: WRSTATE is one `writeHash`. -/
theorem wrstateWritesOneWord : Obligations.WrstateWritesOneWord := by
  intro idx din
  have hword : encodeCmd (.wrstate idx din) = formatI 0x02 0 idx := encodeCmd_eq_formatI_zero (by omega) rfl
  refine ⟨hword ▸ spelledWithData_encode rfl rfl, fun s hi => ?_, refusedWhileBusy_of_wf rfl nofun nofun⟩
  refine completes_of_no_reads rfl (exec_wrstate_of_idle hi idx din)
    ⟨State.hashWord_writeHash_self .., by simp [State.cellWritten_writeHash], fun k hk => ⟨?_, ?_⟩, fun _ => rfl, rfl⟩
  · rw [State.hashWord_writeHash, if_neg hk]
  · simp [State.cellWritten_writeHash, hk]

/-- Settles O16: RDSTATE is one copy of a STATE word to DOUT. -/
theorem rdstateReadsOneWord : Obligations.RdstateReadsOneWord := by
  intro idx
  have hword : encodeCmd (.rdstate idx) = formatI 0x03 0 idx := encodeCmd_eq_formatI_zero (by omega) rfl
  exact ⟨hword ▸ spelledBy_encodeCmd rfl rfl, fun _ hi hr => completes_of_setDout hr (exec_rdstate_of_idle hi idx),
    faultsOnUnwritten_cellsRead rfl, refusedWhileBusy_of_wf rfl nofun nofun⟩

/-- Settles O17: WRBYTE is one `writeByte`. -/
theorem wrbyteStoresOneByte : Obligations.WrbyteStoresOneByte := by
  intro idx din
  have hword : encodeCmd (.wrbyte idx din) = formatI 0x04 0 idx := encodeCmd_eq_formatI_zero idx.2 rfl
  exact ⟨hword ▸ spelledWithData_encode rfl rfl,
    fun s hi => completes_of_no_reads rfl (exec_wrbyte_of_idle hi idx din)
      ⟨readByte_writeByte_self .., onlyBytes_writeByte ..⟩,
    refusedWhileBusy_of_wf rfl nofun nofun⟩

/-- Settles O18: WRWORD is one `memWrite4`; the word read back has its four bytes at the four addresses. -/
theorem wrwordStoresBigEndian : Obligations.WrwordStoresBigEndian := by
  intro idx din
  have hword : encodeCmd (.wrword idx din) = formatI 0x05 0 idx := encodeCmd_eq_formatI_zero (by omega) rfl
  refine ⟨hword ▸ spelledWithData_encode rfl rfl, byteAddr_val idx, fun s hi => ?_, refusedWhileBusy_of_wf rfl nofun nofun⟩
  have hbyte := memRead4_eq_ok.1 (memRead4_memWrite4 s.blk idx din)
  exact completes_of_no_reads rfl (exec_wrword_of_idle hi idx din)
    ⟨hbyte 0, hbyte 1, hbyte 2, hbyte 3, onlyBytes_memWrite4 ..⟩

/-- Settles O19: RDWORD copies the word read to DOUT, or stops where the read does. -/
theorem rdwordReadsBigEndian : Obligations.RdwordReadsBigEndian := by
  intro idx
  have hword : encodeCmd (.rdword idx) = formatI 0x06 0 idx := encodeCmd_eq_formatI_zero (by omega) rfl
  refine ⟨hword ▸ spelledBy_encodeCmd rfl rfl, fun s b0 b1 b2 b3 hi h0 h1 h2 h3 => ?_, fun s hi hn => ?_,
    refusedWhileBusy_of_wf rfl nofun nofun⟩
  · have hr : AllWritten (cellsRead (.rdword idx)) s := by
      simp [AllWritten, cellsRead, wordCells, State.cellWritten, h0, h1, h2, h3]
    exact completes_of_setDout hr (exec_rdword_of_ok hi (memRead4_ok h0 h1 h2 h3))
  · cases hu : firstUnwritten (.rdword idx) s with
    | none => exact absurd (firstUnwritten_eq_none.1 hu) hn
    | some c =>
      obtain ⟨a, ha, rfl⟩ := List.mem_map.1 (show c ∈ (bytesOfWord idx).map .blk from List.mem_of_find?_eq_some hu)
      exact ⟨a, ha, by simpa using List.find?_some hu, exec_rdword_of_error hi (memRead4_of_firstUnwritten hu),
        checkedExec_of_unwritten rfl hi hu⟩

/-- Settles O20: WRV is one `writeLane`. -/
theorem wrvWritesOneLane : Obligations.WrvWritesOneLane := by
  intro v j din
  have hword : encodeCmd (.wrv v j din) = formatI 0x07 v j := encodeCmd_eq_formatI v.2 (by omega) rfl
  refine ⟨hword ▸ spelledWithData_encode rfl rfl, fun s hi => ?_, refusedWhileBusy_of_wf rfl nofun nofun⟩
  refine completes_of_no_reads rfl (exec_wrv_of_idle hi v j din)
    ⟨?_, by simp [State.cellWritten_writeLane], fun r k hk => ⟨?_, ?_⟩, fun _ => rfl, rfl⟩
  · rw [State.vLane_writeLane, if_pos ⟨rfl, rfl⟩]
  · rw [State.vLane_writeLane, if_neg hk]
  · rw [State.cellWritten_writeLane, if_neg (by simpa using hk)]

/-- Settles O21: RDV is one copy of a lane to DOUT. -/
theorem rdvReadsOneLane : Obligations.RdvReadsOneLane := by
  intro v j
  have hword : encodeCmd (.rdv v j) = formatI 0x08 v j := encodeCmd_eq_formatI v.2 (by omega) rfl
  exact ⟨hword ▸ spelledBy_encodeCmd rfl rfl, fun _ hi hr => completes_of_setDout hr (exec_rdv_of_idle hi v j),
    faultsOnUnwritten_cellsRead rfl, refusedWhileBusy_of_wf rfl nofun nofun⟩

end Sys2Proof.Machine
end

section
/-! ## The architectural errors (60_exceptions.md) -/

namespace Sys2Proof.Machine

open Claims

/-! ### What keeps the first error (R234) -/

section Sticky

variable {s t : State} {i : Instr}

/-- Once ERR is 1, a further error changes neither ERR nor the code (R230). -/
theorem State.raiseError_keeps (he : s.err = true) (e : ErrorKind) :
    (s.raiseError e).err = true ∧ (s.raiseError e).errCode = s.errCode :=
  ⟨rfl, if_pos he⟩

theorem TurnEffect.keeps_error (e : TurnEffect s t) (he : s.err = true) : t.err = true ∧ t.errCode = s.errCode :=
  ⟨e.err_eq.trans he, e.errCode_eq⟩

/-- A command keeps the error: a refused one finds ERR at 1, and no other writes ERR or ERRCODE, RDSTATUS included. -/
theorem CommandEffect.keeps_error (e : CommandEffect i s t) (he : s.err = true) : t.err = true ∧ t.errCode = s.errCode := by
  cases e with
  | refusedBusy => exact State.raiseError_keeps he .busy
  | refusedIllegal => exact State.raiseError_keeps he .illegal
  | _ => exact ⟨he, rfl⟩

theorem step_keeps_error (h : step s = .next t) (hr : ¬ NextReset s) (he : s.err = true) :
    t.err = true ∧ t.errCode = s.errCode := by
  obtain ⟨rest, ⟨-, e⟩ | ⟨i, -, -, e⟩ | ⟨-, rfl⟩⟩ := step_cases h hr
  · exact e.keeps_error he
  · exact e.keeps_error he
  · exact State.raiseError_keeps (s := s.setPort rest) he .illegal

theorem step_of_reset {rest : List PortEvent} (hp : s.port = .reset :: rest) :
    step s = .next (State.reset.setPort rest) := by
  simp only [step, hp, runEvent, resetTransition, State.setPort_port]

end Sticky

/-- Settles O10: every transition but reset keeps the error, and reset takes the reset values. -/
theorem errorsAreSticky : Obligations.ErrorsAreSticky := by
  intro s t h
  refine ⟨step_keeps_error h, fun ⟨rest, hp⟩ => ?_⟩
  obtain rfl : State.reset.setPort rest = t := Host.Outcome.next.inj ((step_of_reset hp).symm.trans h)
  exact ⟨rfl, rfl⟩

/-- Settles O9: the gate of every command but NOP and RDSTATUS. -/
theorem busyBlockRefusesCommands : Obligations.BusyBlockRefusesCommands :=
  fun _ _ hw hn hr hb => exec_of_busy hb hw hn hr

/-! ### An illegal word as the next event (R231, R233) -/

section Illegal

variable {s : State} {cmd din : Word} {rest : List PortEvent} {r : IllegalReason}

/-- Legality is looked at before PHASE. -/
theorem step_of_illegal (hp : s.port = .command cmd din :: rest) (hd : decode cmd din = .error r) :
    step s = .next ((s.setPort rest).raiseError .illegal) := by
  simp only [step_of_command hp, runCommand, hd]

/-- An illegal word reads no cell. -/
theorem unwrittenAhead_of_illegal (hp : s.port = .command cmd din :: rest) (hd : decode cmd din = .error r) :
    unwrittenAhead s = none := by
  simp only [unwrittenAhead, hp, hd]

end Illegal

/-- Settles O7, for each of the two machines. -/
theorem illegalWordRaisesIllegal : Obligations.IllegalWordRaisesIllegal := by
  intro s cmd din rest r hp hd
  have hstep := step_of_illegal hp hd
  exact ⟨hstep, (checkedStep_of_written (unwrittenAhead_of_illegal hp hd)).trans hstep⟩

/-- Settles O8, by whether ERR was 0 or 1. -/
theorem raiseErrorRecordsFirstCode : Obligations.RaiseErrorRecordsFirstCode := by
  intro s e
  refine ⟨rfl, fun he => ?_, fun he => (State.raiseError_keeps he e).2, rfl⟩
  cases e <;> simp [he, errorCode]

end Sys2Proof.Machine
end

section
/-! ## Reset and unwritten cells (70_reset_and_hazards.md) -/

namespace Sys2Proof.Machine

open Claims

/-! ### Reset (R260, R261) -/

theorem lane_noMarks (j : LaneIdx) : lane noMarks j = false := by
  match j with
  | 0 | 1 | 2 | 3 => rfl

theorem cellWritten_reset (c : StateCell) : State.reset.cellWritten c = false := by
  cases c with
  | hash i => exact Vector.getElem_replicate i.2
  | blk a => rfl
  | lane r j => exact (congrArg (lane · j) (Vector.getElem_replicate r.2)).trans (lane_noMarks j)

theorem status_reset : State.reset.status = 0 := by decide

/-- Settles O12: a reset transition ends in the state after reset, but for the events still to come. -/
theorem resetValues : Obligations.ResetValues := by
  intro s rest hp
  refine ⟨_, step_of_reset hp, rfl, fun u hu => ?_⟩
  have hreset : ∃ es, u = State.reset.setPort es := by
    rcases List.mem_pair.1 hu with rfl | rfl
    · exact ⟨rest, rfl⟩
    · exact ⟨[], rfl⟩
  obtain ⟨es, rfl⟩ := hreset
  exact ⟨rfl, rfl, rfl, rfl, rfl, rfl, fun c => (State.cellWritten_setPort ..).trans (cellWritten_reset c), _, rfl,
    status_reset⟩

/-- Settles O53. -/
theorem resetStateIsLegal : Obligations.ResetStateIsLegal := legal_reset

/-- Settles O60: no compression runs after reset. -/
theorem resetStateIsOnCourse : Obligations.ResetStateIsOnCourse := fun hb => absurd rfl hb

/-! ### Commands that complete (R264) -/

section Completion

variable {i : Instr} {s : State}

/-- A command other than COMPRESS and RDWORD completes, whatever is unwritten (notes/assumptions/2.md). -/
theorem exec_completes (hc : i ≠ .compress) (hr : ∀ idx, i ≠ .rdword idx) : ∃ t, exec i s = .next t := by
  cases h : exec i s with
  | next t => exact ⟨t, rfl⟩
  | refused r => exact absurd h (exec_ne_refused i s r)
  | fault f =>
    obtain ⟨-, ⟨idx, hi⟩ | hi, -⟩ := exec_eq_fault h
    · exact absurd hi (hr idx)
    · exact absurd hi hc

/-- While idle a command completes when every cell it reads is written. -/
theorem exec_completes_of_allWritten (hi : s.phase = .idle) (hr : AllWritten (cellsRead i) s) : ∃ t, exec i s = .next t := by
  by_cases hc : i = .compress
  · subst hc
    obtain ⟨b, hb⟩ := holdsBlock_of_blkFull (s := s) (allWritten_compress_iff.1 hr).2
    exact ⟨_, exec_compress_of_holds hi hb⟩
  by_cases hw : ∃ idx, i = .rdword idx
  · obtain ⟨idx, rfl⟩ := hw
    rcases memRead4_cases s.blk idx with ⟨_, _, _, _, -, -, -, -, e⟩ | ⟨k, hk, -⟩
    · exact ⟨_, exec_rdword_of_ok hi e⟩
    · have hcell := hr (.blk (byteAddr idx k)) (List.mem_map_of_mem (f := StateCell.blk) (mem_bytesOfWord.2 ⟨k, rfl⟩))
      simp only [State.cellWritten, hk] at hcell
      cases hcell
  · exact exec_completes hc fun idx h => hw ⟨idx, h⟩

end Completion

/-- Settles O55: the first unwritten cell stops the command; with none, `exec` completes. -/
theorem checkedMachineStopsExactlyOnUnwritten : Obligations.CheckedMachineStopsExactlyOnUnwritten := by
  intro i s hw hi
  refine ⟨fun ⟨c, hc, hu⟩ => faultsOnUnwritten_cellsRead hw s hi fun ha => ?_, fun ha => ?_⟩
  · cases (ha c hc).symm.trans hu
  · obtain ⟨t, ht⟩ := exec_completes_of_allWritten hi ha
    exact ⟨t, (checkedExec_of_written (firstUnwritten_eq_none.2 ha)).trans ht, ht⟩

/-! ### Relations between states that commands respect

Both statements below compare `exec` from two related states. The case split over the commands is made once, for any
relation that the updates respect. -/

/-- Both transitions stop alike, or both complete in related states. -/
inductive SameOutcome (R : State → State → Prop) : Result → Result → Prop where
  | next {t w : State} : R t w → SameOutcome R (.next t) (.next w)
  | fault (f : Fault) : SameOutcome R (.fault f) (.fault f)

/-- Related states agree on what commands look at besides STATE and V, and every update leads to related states. -/
structure Respected (R : State → State → Prop) : Prop where
  phase {s u : State} : R s u → u.phase = s.phase
  status {s u : State} : R s u → u.status = s.status
  blk {s u : State} : R s u → u.blk = s.blk
  setDout {s u : State} (x : Word) : R s u → R (s.setDout x) (u.setDout x)
  raiseError {s u : State} (e : ErrorKind) : R s u → R (s.raiseError e) (u.raiseError e)
  setBlk {s u : State} (m : List Host.Cell) : R s u → R (s.setBlk m) (u.setBlk m)
  writeHash {s u : State} (k : StateIdx) (x : Word) : R s u → R (s.writeHash k x) (u.writeHash k x)
  writeV {s u : State} (r : VReg) (g : LaneGroup) : R s u → R (s.writeV r g) (u.writeV r g)
  writeLane {s u : State} (r : VReg) (j : LaneIdx) (x : Word) : R s u → R (s.writeLane r j x) (u.writeLane r j x)
  startCompression {s u : State} : R s u → R { s with phase := .load, grp := 0 } { u with phase := .load, grp := 0 }

/-- The STATE words and V lanes among `cells` have the same values in both states. -/
structure AgreeOn (cells : List StateCell) (s u : State) : Prop where
  hash (k : StateIdx) : .hash k ∈ cells → u.hashWord k = s.hashWord k
  v (r : VReg) (j : LaneIdx) : .lane r j ∈ cells → u.vLane r j = s.vLane r j

section Agree

variable {cells cells' : List StateCell} {s u : State}

theorem AgreeOn.mono (h : AgreeOn cells s u) (hs : cells' ⊆ cells) : AgreeOn cells' s u :=
  ⟨fun k hk => h.hash k (hs hk), fun r j hj => h.v r j (hs hj)⟩

theorem AgreeOn.left (h : AgreeOn (cells ++ cells') s u) : AgreeOn cells s u := h.mono (List.subset_append_left ..)

theorem AgreeOn.right (h : AgreeOn (cells ++ cells') s u) : AgreeOn cells' s u := h.mono (List.subset_append_right ..)

theorem AgreeOn.vGroup {r : VReg} (h : AgreeOn (allLanes r) s u) : u.vGroup r = s.vGroup r :=
  lanes_ext fun j => h.v r j <| by
    match j with
    | 0 | 1 | 2 | 3 => simp [allLanes]

end Agree

/-! #### The lanes a function of groups does not read (41_schedule.md R123 to R126, 42_round.md R147) -/

section Unread

variable {a a' b b' c c' d d' : LaneGroup}

theorem reassemble_congr (h0 : a.l0 = a'.l0) (h1 : a.l1 = a'.l1) (h2 : a.l2 = a'.l2) (h3 : b.l3 = b'.l3) :
    reassemble a b = reassemble a' b' := by
  simp only [reassemble, h0, h1, h2, h3]

theorem scheduleStep1_congr (h3 : b.l3 = b'.l3) : scheduleStep1 a b = scheduleStep1 a b' := by
  simp only [scheduleStep1, reassemble_congr rfl rfl rfl h3]

theorem scheduleStep2_congr (h0 : b.l0 = b'.l0) (h1 : b.l1 = b'.l1) : scheduleStep2 a b = scheduleStep2 a b' := by
  simp only [scheduleStep2, h0, h1]

theorem schedule_congr (hb : b.l3 = b'.l3) (hc0 : c.l0 = c'.l0) (hc1 : c.l1 = c'.l1) (hc2 : c.l2 = c'.l2)
    (hd0 : d.l0 = d'.l0) (hd1 : d.l1 = d'.l1) (hd3 : d.l3 = d'.l3) : schedule a b c d = schedule a b' c' d' := by
  simp only [schedule, scheduleStep1_congr hb, reassemble_congr hc0 hc1 hc2 hd3, scheduleStep2_congr hd0 hd1]

theorem roundPair_congr (h2 : c.l2 = c'.l2) (h3 : c.l3 = c'.l3) : roundPair a b c = roundPair a b c' := by
  simp only [roundPair, h2, h3]

end Unread

/-! #### The templates and `exec` -/

section Respect

variable {R : State → State → Prop} (hR : Respected R) {s u : State} (h : R s u)

include hR h

theorem Respected.whenIdle {x y : Result} (hxy : s.phase = .idle → SameOutcome R x y) :
    SameOutcome R (whenIdle s x) (whenIdle u y) := by
  by_cases hi : s.phase = .idle
  · rw [whenIdle_of_idle hi, whenIdle_of_idle ((hR.phase h).trans hi)]
    exact hxy hi
  · rw [whenIdle_of_busy hi, whenIdle_of_busy (hR.phase h ▸ hi)]
    exact .next (hR.raiseError .busy h)

theorem Respected.readToDout {x y : Except StateCell Word} (hxy : y = x) :
    SameOutcome R (readToDout s x) (readToDout u y) := by
  subst hxy
  cases y with
  | ok x => exact .next (hR.setDout x h)
  | error c => exact .fault _

theorem Respected.writeResult {vd : VReg} {x y : LaneGroup} (hxy : s.phase = .idle → y = x) :
    SameOutcome R (writeResult s vd x) (writeResult u vd y) :=
  hR.whenIdle h fun hi => by
    rw [hxy hi]
    exact .next (hR.writeV vd x h)

theorem Respected.compress : SameOutcome R (exec .compress s) (exec .compress u) := by
  refine hR.whenIdle h fun _ => ?_
  have hb : readBlock u.blk = readBlock s.blk := congrArg readBlock (hR.blk h)
  cases e : readBlock s.blk with
  | ok g =>
    rw [hb.trans e]
    exact .next (hR.startCompression h)
  | error c =>
    rw [hb.trans e]
    exact .fault _

/-- The pair of results VRND4 computes is taken from the lanes of its three registers. -/
theorem Respected.vrnd4 {a c w : VReg} {g : GroupIdx}
    (ha : s.phase = .idle → AgreeOn (cellsRead (.vrnd4 a c w g)) s u) :
    SameOutcome R (exec (.vrnd4 a c w g) s) (exec (.vrnd4 a c w g) u) := by
  by_cases hac : a = c
  · simp only [exec, execVrnd4, if_pos hac]
    exact .next (hR.raiseError .illegal h)
  · simp only [exec, execVrnd4, if_neg hac]
    refine hR.whenIdle h fun hi => ?_
    rw [(ha hi).left.left.vGroup, (ha hi).left.right.vGroup, (ha hi).right.vGroup]
    exact .next (hR.writeV _ _ (hR.writeV _ _ h))

/-- From related states that agree on the cells the command reads, `exec` does the same. -/
theorem Respected.exec {i : Instr} (ha : s.phase = .idle → AgreeOn (cellsRead i) s u) :
    SameOutcome R (exec i s) (exec i u) := by
  cases i with
  | nop => exact .next h
  | rdstatus => exact hR.readToDout h (congrArg Except.ok (hR.status h))
  | wrstate k x => exact hR.whenIdle h fun _ => .next (hR.writeHash k x h)
  | rdstate k =>
    exact hR.whenIdle h fun hi => hR.readToDout h (congrArg _ ((ha hi).hash k (List.mem_singleton_self _)))
  | wrbyte a x => exact hR.whenIdle h fun _ => hR.blk h ▸ .next (hR.setBlk _ h)
  | wrword k x => exact hR.whenIdle h fun _ => hR.blk h ▸ .next (hR.setBlk _ h)
  | rdword k => exact hR.whenIdle h fun _ => hR.readToDout h (by rw [hR.blk h])
  | wrv r j x => exact hR.whenIdle h fun _ => .next (hR.writeLane r j x h)
  | rdv r j =>
    exact hR.whenIdle h fun hi => hR.readToDout h (congrArg _ ((ha hi).v r j (List.mem_singleton_self _)))
  | compress => exact hR.compress h
  | vsrl vd va n => exact hR.writeResult h fun hi => by rw [(ha hi).vGroup]
  | vsll vd va n => exact hR.writeResult h fun hi => by rw [(ha hi).vGroup]
  | vor vd va vb => exact hR.writeResult h fun hi => by rw [(ha hi).left.vGroup, (ha hi).right.vGroup]
  | vxor vd va vb => exact hR.writeResult h fun hi => by rw [(ha hi).left.vGroup, (ha hi).right.vGroup]
  | vadd vd va vb => exact hR.writeResult h fun hi => by rw [(ha hi).left.vGroup, (ha hi).right.vGroup]
  | valign vd prev next =>
    refine hR.writeResult h fun hi => ?_
    have hv := (ha hi).v
    exact reassemble_congr (hv prev 0 (by simp [cellsRead])) (hv prev 1 (by simp [cellsRead]))
      (hv prev 2 (by simp [cellsRead])) (hv next 3 (by simp [cellsRead]))
  | vmsg1 vd prev next =>
    refine hR.writeResult h fun hi => ?_
    rw [(ha hi).left.vGroup]
    exact scheduleStep1_congr ((ha hi).right.v next 3 (by simp))
  | vmsg2 vd mixed later =>
    refine hR.writeResult h fun hi => ?_
    rw [(ha hi).left.vGroup]
    exact scheduleStep2_congr ((ha hi).right.v later 0 (by simp)) ((ha hi).right.v later 1 (by simp))
  | vsched vd w0 w1 w2 w3 =>
    refine hR.writeResult h fun hi => ?_
    have h0 := (ha hi).left.left.left.vGroup
    have h1 := (ha hi).left.left.right.v
    have h2 := (ha hi).left.right.v
    have h3 := (ha hi).right.v
    rw [h0]
    exact schedule_congr (h1 w1 3 (by simp)) (h2 w2 0 (by simp)) (h2 w2 1 (by simp)) (h2 w2 2 (by simp))
      (h3 w3 0 (by simp)) (h3 w3 1 (by simp)) (h3 w3 3 (by simp))
  | vswap vd va => exact hR.writeResult h fun hi => by rw [(ha hi).vGroup]
  | vaddk vd va g => exact hR.writeResult h fun hi => by rw [(ha hi).vGroup]
  | vrnd2 vd cdgh abef wk =>
    refine hR.writeResult h fun hi => ?_
    rw [(ha hi).left.left.vGroup, (ha hi).left.right.vGroup]
    exact roundPair_congr ((ha hi).right.v wk 2 (by simp)) ((ha hi).right.v wk 3 (by simp))
  | vrnd4 a c w g => exact hR.vrnd4 h ha

end Respect

/-! ### The written marks in `exec` (notes/assumptions/2.md) -/

/-- The states are the same but for the written marks of STATE and V. -/
def DifferInMarks (s u : State) : Prop := s = { u with hashMarks := s.hashMarks, vMarks := s.vMarks }

/-- No update looks at a mark but to set it. -/
theorem respected_differInMarks : Respected DifferInMarks where
  phase h := (congrArg State.phase h).symm
  status h := (congrArg State.status h).symm
  blk h := (congrArg State.blk h).symm
  setDout x h := congrArg (State.setDout · x) h
  raiseError e h := congrArg (State.raiseError · e) h
  setBlk m h := congrArg (State.setBlk · m) h
  writeHash k x h := congrArg (State.writeHash · k x) h
  writeV r g h := congrArg (State.writeV · r g) h
  writeLane r j x h := congrArg (State.writeLane · r j x) h
  startCompression h := congrArg (fun s : State => ({ s with phase := .load, grp := 0 } : State)) h

/-- Settles O58: only RDWORD and COMPRESS can stop, and `exec` respects states that differ in the marks alone. -/
theorem marksDoNotSteerExec : Obligations.MarksDoNotSteerExec := by
  refine ⟨fun i s _ hc hr => exec_completes hc hr, fun i s t hm vm ht => ?_⟩
  have h : DifferInMarks s { s with hashMarks := hm, vMarks := vm } := rfl
  have ho := respected_differInMarks.exec h (i := i) fun _ => ⟨fun _ _ => rfl, fun _ _ _ => rfl⟩
  rw [ht] at ho
  generalize exec i { s with hashMarks := hm, vMarks := vm } = y at ho
  cases ho with
  | next hw => exact ⟨_, rfl, hw⟩

/-! ### The values of unwritten cells in the checked machine (R264) -/

namespace SameWritten

variable {s u : State}

theorem refl (s : State) : SameWritten s s := ⟨rfl, rfl, fun _ _ => rfl, fun _ _ _ => rfl, rfl⟩

theorem phase_eq (h : SameWritten s u) : u.phase = s.phase := by rw [h.rest]

theorem port_eq (h : SameWritten s u) : u.port = s.port := by rw [h.rest]

theorem blk_eq (h : SameWritten s u) : u.blk = s.blk := by rw [h.rest]

theorem grp_eq (h : SameWritten s u) : u.grp = s.grp := by rw [h.rest]

theorem status_eq (h : SameWritten s u) : u.status = s.status := by
  rw [h.rest]
  rfl

theorem cellWritten_eq (h : SameWritten s u) (c : StateCell) : u.cellWritten c = s.cellWritten c := by
  cases c with
  | hash k => simp only [State.cellWritten, h.hashMarks]
  | blk a => simp only [State.cellWritten, h.blk_eq]
  | lane r j => simp only [State.cellWritten, h.vMarks]

theorem firstUnwritten_eq (h : SameWritten s u) (i : Instr) : firstUnwritten i u = firstUnwritten i s := by
  simp only [firstUnwritten, h.cellWritten_eq]

/-- Written cells have the same values. -/
theorem agreeOn (h : SameWritten s u) {cells : List StateCell} (hw : AllWritten cells s) : AgreeOn cells s u :=
  ⟨fun k hk => h.hash k (hw _ hk), fun r j hj => h.v r j (hw _ hj)⟩

theorem setPort (h : SameWritten s u) (es : List PortEvent) : SameWritten (s.setPort es) (u.setPort es) :=
  ⟨h.hashMarks, h.vMarks, h.hash, h.v, congrArg (State.setPort · es) h.rest⟩

/-- A STATE word written has the same value in both states from then on. -/
theorem writeHash (h : SameWritten s u) (k : StateIdx) (x : Word) : SameWritten (s.writeHash k x) (u.writeHash k x) where
  hashMarks := congrArg (·.set k.val true) h.hashMarks
  vMarks := h.vMarks
  hash i hi := by
    simp only [State.hashWord_writeHash]
    split
    · rfl
    · next hne => exact h.hash i (by simpa [State.cellWritten_writeHash, hne] using hi)
  v := h.v
  rest := congrArg (State.writeHash · k x) h.rest

/-- A V register written has the same lanes in both states from then on. -/
theorem writeV (h : SameWritten s u) (r : VReg) (g : LaneGroup) : SameWritten (s.writeV r g) (u.writeV r g) where
  hashMarks := h.hashMarks
  vMarks := congrArg (·.set r.val ⟨true, true, true, true⟩) h.vMarks
  hash := h.hash
  v r' j hj := by
    simp only [State.vLane_writeV]
    split
    · rfl
    · next hne => exact h.v r' j (by simpa [State.cellWritten_writeV, hne] using hj)
  rest := congrArg (State.writeV · r g) h.rest

/-- One lane written has the same value in both states from then on; the register's other lanes are as before. -/
theorem writeLane (h : SameWritten s u) (r : VReg) (j : LaneIdx) (x : Word) :
    SameWritten (s.writeLane r j x) (u.writeLane r j x) where
  hashMarks := h.hashMarks
  vMarks := by simp only [State.writeLane_vMarks, h.vMarks]
  hash := h.hash
  v r' j' hj := by
    simp only [State.vLane_writeLane]
    split
    · rfl
    · next hne => exact h.v r' j' (by simpa [State.cellWritten_writeLane, hne] using hj)
  rest := congrArg (State.writeLane · r j x) h.rest

end SameWritten

theorem respected_sameWritten : Respected SameWritten where
  phase h := h.phase_eq
  status h := h.status_eq
  blk h := h.blk_eq
  setDout x h := ⟨h.hashMarks, h.vMarks, h.hash, h.v, congrArg (State.setDout · x) h.rest⟩
  raiseError e h := ⟨h.hashMarks, h.vMarks, h.hash, h.v, congrArg (State.raiseError · e) h.rest⟩
  setBlk m h := ⟨h.hashMarks, h.vMarks, h.hash, h.v, congrArg (State.setBlk · m) h.rest⟩
  writeHash k x h := h.writeHash k x
  writeV r g h := h.writeV r g
  writeLane r j x h := h.writeLane r j x
  startCompression h := ⟨h.hashMarks, h.vMarks, h.hash, h.v,
    congrArg (fun s : State => ({ s with phase := .load, grp := 0 } : State)) h.rest⟩

section Checked

variable {s u : State}

/-- A legal command: the checked machine stops on the same unwritten cell, or every cell read has the same value. -/
theorem SameWritten.checkedExec (h : SameWritten s u) {i : Instr} (hw : i.wf = true) :
    SameOutcome SameWritten (checkedExec i s) (checkedExec i u) := by
  by_cases hi : s.phase = .idle
  · have hu := h.firstUnwritten_eq i
    cases hs : firstUnwritten i s with
    | some c =>
      rw [checkedExec_of_unwritten hw hi hs, checkedExec_of_unwritten hw (h.phase_eq.trans hi) (hu.trans hs)]
      exact .fault _
    | none =>
      rw [checkedExec_of_written hs, checkedExec_of_written (hu.trans hs)]
      exact respected_sameWritten.exec h fun _ => h.agreeOn (firstUnwritten_eq_none.1 hs)
  · rw [checkedExec_of_busy hi, checkedExec_of_busy (h.phase_eq ▸ hi)]
    exact respected_sameWritten.exec h fun hidle => absurd hidle hi

/-- With every STATE word written, the states differ in lanes of V alone. -/
theorem SameWritten.exists_eq_with_v (h : SameWritten s u) (hw : ∀ k, s.cellWritten (.hash k) = true) :
    ∃ v, u = { s with v := v } := by
  have hh : u.hash = s.hash := hash_ext fun k => h.hash k (hw k)
  exact ⟨u.v, hh ▸ h.rest⟩

/-- LOAD reads STATE, every word of it written, and no lane of V. -/
theorem SameWritten.loadStep (h : SameWritten s u) (hw : ∀ k, s.cellWritten (.hash k) = true) :
    SameOutcome SameWritten (loadStep s) (loadStep u) := by
  obtain ⟨v, rfl⟩ := h.exists_eq_with_v hw
  unfold Machine.loadStep
  cases readBlock s.blk with
  | ok b => exact .next ⟨rfl, rfl, fun _ _ => rfl, h.v, rfl⟩
  | error c => exact .fault _

/-- ROUNDS reads neither STATE nor V. -/
theorem SameWritten.roundsStep (h : SameWritten s u) (g : GroupIdx) : SameWritten (roundsStep s g) (roundsStep u g) :=
  ⟨h.hashMarks, h.vMarks, h.hash, h.v, congrArg (Machine.roundsStep · g) h.rest⟩

/-- FINAL reads STATE, every word of it written, and no lane of V. -/
theorem SameWritten.finalStep (h : SameWritten s u) (hw : ∀ k, s.cellWritten (.hash k) = true) :
    SameWritten (finalStep s) (finalStep u) := by
  obtain ⟨v, rfl⟩ := h.exists_eq_with_v hw
  exact ⟨rfl, rfl, fun _ _ => rfl, h.v, rfl⟩

theorem sequencerTurn_stuck (hp : s.phase = .rounds) (hg : ¬ s.grp.toNat < 16) : sequencerTurn s = .fault .sequencerStuck := by
  simp only [sequencerTurn, hp, dif_neg hg]

/-- The sequencer's turn in each phase: STATE is read only while a compression runs. -/
theorem SameWritten.sequencerTurn (h : SameWritten s u) (hb : s.BusyHashWritten) :
    SameOutcome SameWritten (sequencerTurn s) (sequencerTurn u) := by
  cases hp : s.phase with
  | idle =>
    rw [sequencerTurn_idle hp, sequencerTurn_idle (h.phase_eq.trans hp)]
    exact .next h
  | load =>
    rw [sequencerTurn_load hp, sequencerTurn_load (h.phase_eq.trans hp)]
    exact h.loadStep (hb (by simp [hp]))
  | rounds =>
    have hpu := h.phase_eq.trans hp
    have hgrp := congrArg BitVec.toNat h.grp_eq
    by_cases hg : s.grp.toNat < 16
    · rw [sequencerTurn_rounds (g := ⟨_, hg⟩) hp rfl, sequencerTurn_rounds (g := ⟨_, hg⟩) hpu hgrp]
      exact .next (h.roundsStep _)
    · rw [sequencerTurn_stuck hp hg, sequencerTurn_stuck hpu (hgrp ▸ hg)]
      exact .fault _
  | final =>
    rw [sequencerTurn_final hp, sequencerTurn_final (h.phase_eq.trans hp)]
    exact .next (h.finalStep (hb (by simp [hp])))

/-! #### The checked transition by the event to come: only a legal command can meet an unwritten cell -/

theorem checkedStep_of_quiet (hp : s.port = []) : checkedStep s = sequencerTurn s := by
  rw [checkedStep_of_written (by simp only [unwrittenAhead, hp]), step_of_quiet hp]

theorem checkedStep_of_turn {rest : List PortEvent} (hp : s.port = .sequencerTurn :: rest) :
    checkedStep s = sequencerTurn (s.setPort rest) := by
  rw [checkedStep_of_written (by simp only [unwrittenAhead, hp]), step_of_turn hp]

theorem checkedStep_of_reset {rest : List PortEvent} (hp : s.port = .reset :: rest) :
    checkedStep s = .next (State.reset.setPort rest) := by
  rw [checkedStep_of_written (by simp only [unwrittenAhead, hp]), step_of_reset hp]

theorem checkedStep_of_illegal {cmd din : Word} {rest : List PortEvent} {r : IllegalReason}
    (hp : s.port = .command cmd din :: rest) (hd : decode cmd din = .error r) :
    checkedStep s = .next ((s.setPort rest).raiseError .illegal) :=
  (illegalWordRaisesIllegal s cmd din rest r hp hd).2

/-- Every transition of the checked machine, by the event to come, which is the same for both states. -/
theorem SameWritten.checkedStep (h : SameWritten s u) (hb : s.BusyHashWritten) :
    SameOutcome SameWritten (checkedStep s) (checkedStep u) := by
  cases hp : s.port with
  | nil =>
    rw [checkedStep_of_quiet hp, checkedStep_of_quiet (h.port_eq.trans hp)]
    exact h.sequencerTurn hb
  | cons e rest =>
    have hu := h.port_eq.trans hp
    cases e with
    | command cmd din =>
      cases hd : decode cmd din with
      | ok i =>
        rw [checkedStep_of_decode hp hd, checkedStep_of_decode hu hd]
        exact (h.setPort rest).checkedExec (wf_of_decode hd)
      | error r =>
        rw [checkedStep_of_illegal hp hd, checkedStep_of_illegal hu hd]
        exact .next (respected_sameWritten.raiseError .illegal (h.setPort rest))
    | sequencerTurn =>
      rw [checkedStep_of_turn hp, checkedStep_of_turn hu]
      exact (h.setPort rest).sequencerTurn hb
    | reset =>
      rw [checkedStep_of_reset hp, checkedStep_of_reset hu]
      exact .next (.refl _)

end Checked

/-- Settles O56, from the one comparison of the two checked transitions. -/
theorem unwrittenValuesNeverMatter : Obligations.UnwrittenValuesNeverMatter := by
  intro s u h hb
  have ho := h.checkedStep hb
  generalize checkedStep s = x at ho
  generalize checkedStep u = y at ho
  cases ho with
  | next hw => exact ⟨fun t ht => ⟨_, rfl, Host.Outcome.next.inj ht ▸ hw⟩, nofun⟩
  | fault f => exact ⟨nofun, fun _ hf => hf⟩

end Sys2Proof.Machine
end
